-- ==== Sys2Proof/Word.lean ====
section
/-! DEFINITION. The unit of storage and computation of the cpu-v2 core: the word. -/

namespace Sys2Proof

/-- A word: "a 16-bit unsigned integer; all registers, memory cells, and instructions are words"
(10_state.md R10).  Its arithmetic wraps modulo 65536 (41_alu.md R94). -/
abbrev Word := BitVec 16

end Sys2Proof
end

