-- ==== Sys2Proof/Syntax.lean ====
section
/-! DEFINITION. The instructions: one constructor per row of spec/opcode_table.json, the nineteen
illegal-space rows among them (30_encoding.md section 5).  Operands are the unsigned fields of the word
as they stand (R58); bits the spec calls ignored (R55, R57, R59, R60) are no operand. -/

namespace Sys2Proof

/-- The JUMP sign bit `ir[9]`: "0 forward, 1 backward" (R56). -/
inductive JumpSign where
  | forward
  | backward
  deriving DecidableEq, Repr

/-- The rows of the opcode table.  An ALU instruction encodes no operand (R52, R81); an illegal ALU
mode keeps its whole 12-bit `mode`, because the fault records it (R93). -/
inductive Instr where
  -- opcode 0, format A, modes 0 to 10
  | shl
  | shr
  | and
  | not
  | xor
  | or
  | add
  | sub
  | cmp
  | inc
  | dec
  -- opcode 0, modes 11 to 4095 (R61): one row per highest set bit of the mode
  | illegalAluMode000B
  | illegalAluMode000C (mode : BitVec 12)
  | illegalAluMode0010 (mode : BitVec 12)
  | illegalAluMode0020 (mode : BitVec 12)
  | illegalAluMode0040 (mode : BitVec 12)
  | illegalAluMode0080 (mode : BitVec 12)
  | illegalAluMode0100 (mode : BitVec 12)
  | illegalAluMode0200 (mode : BitVec 12)
  | illegalAluMode0400 (mode : BitVec 12)
  | illegalAluMode0800 (mode : BitVec 12)
  -- opcodes 1 to 6
  | ld (reg : BitVec 4) (addr : BitVec 8)
  | st (reg : BitVec 4) (addr : BitVec 8)
  | mov (src : BitVec 4) (dst : BitVec 4)
  | jmp (jumpType : BitVec 2) (jumpSign : JumpSign) (jumpSize : BitVec 9)
  | li (reg : BitVec 4) (value : BitVec 8)
  | halt
  -- opcodes 7 to 15 (R59, R60)
  | illegalOp7
  | illegalOp8
  | illegalOp9
  | illegalOp10
  | illegalOp11
  | illegalOp12
  | illegalOp13
  | illegalOp14
  | illegalOp15
  deriving DecidableEq, Repr

end Sys2Proof
end

