-- ==== Sys2Proof/WellFormed.lean ====
section
/-! DEFINITION. Which instruction terms an encoding exists for.  Every operand has the width of its
field, so only the illegal-mode rows can hold a value their row does not spell.  A register index of
8 to 15 or a data address of 16 to 255 is "well formed but faults when executed" (30_encoding.md R62). -/

namespace Sys2Proof

/-- The mode lies in the half-open range a row of the opcode table covers. -/
def modeIn (mode : BitVec 12) (lo hi : Nat) : Bool :=
  decide (lo ≤ mode.toNat) && decide (mode.toNat < hi)

/-- The term is the reading of some word: an illegal ALU mode lies in its row's range
(spec/opcode_table.json, `source_fields.mode.valid`; R61). -/
def Instr.wellFormed : Instr → Bool
  | .shl => true
  | .shr => true
  | .and => true
  | .not => true
  | .xor => true
  | .or => true
  | .add => true
  | .sub => true
  | .cmp => true
  | .inc => true
  | .dec => true
  | .illegalAluMode000B => true
  | .illegalAluMode000C mode => modeIn mode 12 16
  | .illegalAluMode0010 mode => modeIn mode 16 32
  | .illegalAluMode0020 mode => modeIn mode 32 64
  | .illegalAluMode0040 mode => modeIn mode 64 128
  | .illegalAluMode0080 mode => modeIn mode 128 256
  | .illegalAluMode0100 mode => modeIn mode 256 512
  | .illegalAluMode0200 mode => modeIn mode 512 1024
  | .illegalAluMode0400 mode => modeIn mode 1024 2048
  | .illegalAluMode0800 mode => modeIn mode 2048 4096
  | .ld _ _ => true
  | .st _ _ => true
  | .mov _ _ => true
  | .jmp _ _ _ => true
  | .li _ _ => true
  | .halt => true
  | .illegalOp7 => true
  | .illegalOp8 => true
  | .illegalOp9 => true
  | .illegalOp10 => true
  | .illegalOp11 => true
  | .illegalOp12 => true
  | .illegalOp13 => true
  | .illegalOp14 => true
  | .illegalOp15 => true

end Sys2Proof
end

