-- ==== Sys2Proof/Decode.lean ====
section
/-! DEFINITION. From words to instructions and back (30_encoding.md).  Decoding is total: "each of the
65536 words falls in exactly one row" (R65), and a reserved word is read as the named illegal row it
falls in. -/

namespace Sys2Proof

/-- `w[lo+len-1:lo]`, bit 15 the most significant (00_scope.md section 5.1). -/
def bits (w : Word) (lo len : Nat) : BitVec len := w.extractLsb' lo len

/-- `opcode = ir[15:12]` (R50). -/
def opcodeOf (w : Word) : BitVec 4 := bits w 12 4

/-- `jumpSign`: 0 selects addition, 1 subtraction (R56, R58 item 4). -/
def signOfBit (b : BitVec 1) : JumpSign := if b = 0 then .forward else .backward

/-- `ir[9]` of a JUMP with this sign. -/
def bitOfSign : JumpSign → BitVec 1
  | .forward => 0
  | .backward => 1

/-- Opcode 0 by `mode = ir[11:0]`, compared "as a 12-bit number" (R52, R58 item 5).  Modes 0 to 10 are
the eleven operations in the order of R80; modes 11 to 4095 are illegal (R61) and fall in the table's
row of their highest set bit. -/
def decodeAlu (mode : BitVec 12) : Instr :=
  match mode.toNat with
  | 0 => .shl
  | 1 => .shr
  | 2 => .and
  | 3 => .not
  | 4 => .xor
  | 5 => .or
  | 6 => .add
  | 7 => .sub
  | 8 => .cmp
  | 9 => .inc
  | 10 => .dec
  | 11 => .illegalAluMode000B
  | n =>
    if n < 16 then .illegalAluMode000C mode
    else if n < 32 then .illegalAluMode0010 mode
    else if n < 64 then .illegalAluMode0020 mode
    else if n < 128 then .illegalAluMode0040 mode
    else if n < 256 then .illegalAluMode0080 mode
    else if n < 512 then .illegalAluMode0100 mode
    else if n < 1024 then .illegalAluMode0200 mode
    else if n < 2048 then .illegalAluMode0400 mode
    else .illegalAluMode0800 mode

/-- The reading of a word under an opcode (R51 to R57).  `ir[11:8]` of MOVE and `ir[11:0]` of HALT and of
opcodes 7 to 15 are ignored (R55, R57, R59, R60). -/
def decodeAs (opcode : Nat) (w : Word) : Instr :=
  match opcode with
  | 0 => decodeAlu (bits w 0 12)
  | 1 => .ld (bits w 8 4) (bits w 0 8)
  | 2 => .st (bits w 8 4) (bits w 0 8)
  | 3 => .mov (bits w 4 4) (bits w 0 4)
  | 4 => .jmp (bits w 10 2) (signOfBit (bits w 9 1)) (bits w 0 9)
  | 5 => .li (bits w 8 4) (bits w 0 8)
  | 6 => .halt
  | 7 => .illegalOp7
  | 8 => .illegalOp8
  | 9 => .illegalOp9
  | 10 => .illegalOp10
  | 11 => .illegalOp11
  | 12 => .illegalOp12
  | 13 => .illegalOp13
  | 14 => .illegalOp14
  | _ => .illegalOp15  -- 15, the last of the sixteen values of a 4-bit field

/-- Decode one word by its opcode (R50, R51; 40_execution_cycle.md R72). -/
def decode (w : Word) : Instr := decodeAs (opcodeOf w).toNat w

/-- Format A: `0000 mode` (R52). -/
def encodeA (mode : BitVec 12) : Word := 0#4 ++ mode

/-- Formats M and I: `opcode reg low8` (R53, R54). -/
def encodeM (opcode : BitVec 4) (reg : BitVec 4) (low : BitVec 8) : Word := opcode ++ reg ++ low

/-- Format R: `0011 0000 src dst`, the ignored bits canonically 0 (R55, R63). -/
def encodeR (src dst : BitVec 4) : Word := 3#4 ++ 0#4 ++ src ++ dst

/-- Format J: `0100 type sign size` (R56). -/
def encodeJ (jumpType : BitVec 2) (jumpSign : JumpSign) (jumpSize : BitVec 9) : Word :=
  4#4 ++ jumpType ++ bitOfSign jumpSign ++ jumpSize

/-- A word with an opcode and twelve ignored bits, canonically 0 (R57, R59, R60). -/
def encodeBare (opcode : BitVec 4) : Word := opcode ++ 0#12

/-- The canonical word of an instruction (R51 to R63). -/
def encode : Instr → Word
  | .shl => encodeA 0
  | .shr => encodeA 1
  | .and => encodeA 2
  | .not => encodeA 3
  | .xor => encodeA 4
  | .or => encodeA 5
  | .add => encodeA 6
  | .sub => encodeA 7
  | .cmp => encodeA 8
  | .inc => encodeA 9
  | .dec => encodeA 10
  | .illegalAluMode000B => encodeA 11
  | .illegalAluMode000C mode => encodeA mode
  | .illegalAluMode0010 mode => encodeA mode
  | .illegalAluMode0020 mode => encodeA mode
  | .illegalAluMode0040 mode => encodeA mode
  | .illegalAluMode0080 mode => encodeA mode
  | .illegalAluMode0100 mode => encodeA mode
  | .illegalAluMode0200 mode => encodeA mode
  | .illegalAluMode0400 mode => encodeA mode
  | .illegalAluMode0800 mode => encodeA mode
  | .ld reg addr => encodeM 1 reg addr
  | .st reg addr => encodeM 2 reg addr
  | .mov src dst => encodeR src dst
  | .jmp jumpType jumpSign jumpSize => encodeJ jumpType jumpSign jumpSize
  | .li reg value => encodeM 5 reg value
  | .halt => encodeBare 6
  | .illegalOp7 => encodeBare 7
  | .illegalOp8 => encodeBare 8
  | .illegalOp9 => encodeBare 9
  | .illegalOp10 => encodeBare 10
  | .illegalOp11 => encodeBare 11
  | .illegalOp12 => encodeBare 12
  | .illegalOp13 => encodeBare 13
  | .illegalOp14 => encodeBare 14
  | .illegalOp15 => encodeBare 15

/-- The mask of the bits of a word with this opcode that its instruction depends on: all but
`ir[11:8]` of MOVE, and the opcode alone for HALT and the illegal opcodes (R55, R57, R59, R60, R63). -/
def significantMask (opcode : BitVec 4) : Word :=
  if opcode = 3 then 0xF0FF else if opcode.toNat < 6 then 0xFFFF else 0xF000

/-- The word with its ignored bits cleared: "this spec's canonical encodings set them to 0" (R63). -/
def canonicalWord (w : Word) : Word := w &&& significantMask (opcodeOf w)

/-- A row of spec/opcode_table.json as a pattern: it takes `w` when `w &&& mask = pattern`
(30_encoding.md section 5). -/
structure OpcodeRow where
  pattern : Word
  mask : Word
  deriving DecidableEq, Repr

/-- The word selects the row. -/
def OpcodeRow.takes (r : OpcodeRow) (w : Word) : Bool := w &&& r.mask == r.pattern

/-- Each instruction's row of spec/opcode_table.json. -/
def Instr.row : Instr → OpcodeRow
  | .shl => ⟨0x0000, 0xFFFF⟩
  | .shr => ⟨0x0001, 0xFFFF⟩
  | .and => ⟨0x0002, 0xFFFF⟩
  | .not => ⟨0x0003, 0xFFFF⟩
  | .xor => ⟨0x0004, 0xFFFF⟩
  | .or => ⟨0x0005, 0xFFFF⟩
  | .add => ⟨0x0006, 0xFFFF⟩
  | .sub => ⟨0x0007, 0xFFFF⟩
  | .cmp => ⟨0x0008, 0xFFFF⟩
  | .inc => ⟨0x0009, 0xFFFF⟩
  | .dec => ⟨0x000A, 0xFFFF⟩
  | .illegalAluMode000B => ⟨0x000B, 0xFFFF⟩
  | .illegalAluMode000C _ => ⟨0x000C, 0xFFFC⟩
  | .illegalAluMode0010 _ => ⟨0x0010, 0xFFF0⟩
  | .illegalAluMode0020 _ => ⟨0x0020, 0xFFE0⟩
  | .illegalAluMode0040 _ => ⟨0x0040, 0xFFC0⟩
  | .illegalAluMode0080 _ => ⟨0x0080, 0xFF80⟩
  | .illegalAluMode0100 _ => ⟨0x0100, 0xFF00⟩
  | .illegalAluMode0200 _ => ⟨0x0200, 0xFE00⟩
  | .illegalAluMode0400 _ => ⟨0x0400, 0xFC00⟩
  | .illegalAluMode0800 _ => ⟨0x0800, 0xF800⟩
  | .ld _ _ => ⟨0x1000, 0xF000⟩
  | .st _ _ => ⟨0x2000, 0xF000⟩
  | .mov _ _ => ⟨0x3000, 0xF000⟩
  | .jmp _ _ _ => ⟨0x4000, 0xF000⟩
  | .li _ _ => ⟨0x5000, 0xF000⟩
  | .halt => ⟨0x6000, 0xF000⟩
  | .illegalOp7 => ⟨0x7000, 0xF000⟩
  | .illegalOp8 => ⟨0x8000, 0xF000⟩
  | .illegalOp9 => ⟨0x9000, 0xF000⟩
  | .illegalOp10 => ⟨0xA000, 0xF000⟩
  | .illegalOp11 => ⟨0xB000, 0xF000⟩
  | .illegalOp12 => ⟨0xC000, 0xF000⟩
  | .illegalOp13 => ⟨0xD000, 0xF000⟩
  | .illegalOp14 => ⟨0xE000, 0xF000⟩
  | .illegalOp15 => ⟨0xF000, 0xF000⟩

/-- The 36 rows of spec/opcode_table.json. -/
def opcodeTable : List OpcodeRow :=
  [.shl, .shr, .and, .not, .xor, .or, .add, .sub, .cmp, .inc, .dec].map Instr.row ++
  [.illegalAluMode000B, .illegalAluMode000C 0, .illegalAluMode0010 0, .illegalAluMode0020 0,
   .illegalAluMode0040 0, .illegalAluMode0080 0, .illegalAluMode0100 0, .illegalAluMode0200 0,
   .illegalAluMode0400 0, .illegalAluMode0800 0].map Instr.row ++
  [.ld 0 0, .st 0 0, .mov 0 0, .jmp 0 .forward 0, .li 0 0, .halt].map Instr.row ++
  [.illegalOp7, .illegalOp8, .illegalOp9, .illegalOp10, .illegalOp11, .illegalOp12, .illegalOp13,
   .illegalOp14, .illegalOp15].map Instr.row

/-- The first word of a table number: its lowest `nbits` bits, every bit above them 0.  One instruction
is one word (R50), so bits above 15 belong to no instruction. -/
def tableWord (nbits w : Nat) : Word := BitVec.ofNat 16 (w % 2 ^ nbits)

/-- The instruction the decoder reads from a row's bits; decoding is total, so it never refuses
(R65). -/
def decodeTableWord (nbits w : Nat) : Option Instr := some (decode (tableWord nbits w))

end Sys2Proof
end

