-- ==== Sys2Proof/Config.lean ====
section
/-! DEFINITION. What is fixed for the whole machine: the sizes of the source (00_scope.md R3) and the
two named parameters the spec leaves open (00_scope.md section 4).  The values of the parameters this
hardware is taken to have stand in Machine/Parameters.lean. -/

namespace Sys2Proof

/-- `DMEM_WORDS`: cells of the data RAM, addresses 0 to 15 (R3, R22). -/
abbrev dmemWords : Nat := 16

/-- `IMEM_WORDS`: cells of the instruction RAM, addresses 0 to 63 (R3, R23). -/
abbrev imemWords : Nat := 64

/-- `NREGS`: slots of the register file, indices 0 to 7 (R3, R11). -/
abbrev nRegs : Nat := 8

/-- `XLEN`: the width of a word, which is also where a shift amount stops being exact (R3, R82). -/
abbrev wordBits : Nat := 16

/-- The parameter `MOVE_SEMANTICS` (00_scope.md section 4; 42_data_transfer.md R102). -/
inductive MoveSemantics where
  /-- The two index fields of the word select the slots (R103). -/
  | fields
  /-- Both indices are the constant 0 (R104). -/
  | literal
  deriving DecidableEq, Repr

/-- The parameter `SHIFT_GE16`: what `SHL` and `SHR` do with an amount of 16 or more
(00_scope.md section 4; 41_alu.md R82, R83). -/
inductive ShiftGe16 where
  /-- The result is 0. -/
  | zero
  /-- The amount is taken modulo 16. -/
  | mod16
  /-- The step raises `UnspecifiedShift(b)` (60_exceptions.md R129). -/
  | fault
  deriving DecidableEq, Repr

/-- The two implementation parameters, "fixed for a whole model and not state" (30_encoding.md R64). -/
structure Config where
  moveSemantics : MoveSemantics
  shiftGe16 : ShiftGe16
  deriving DecidableEq, Repr

end Sys2Proof
end

