-- ==== Sys2Proof/Machine/Parameters.lean ====
section
/-! DEFINITION. The values this hardware is taken to have for what the spec leaves to a parameter, and
what a memory cell that nothing has set reads as. -/

namespace Sys2Proof.Machine

/-- DESIGN CHOICE (log entry 3).  The default of `MOVE_SEMANTICS`: "The hardware this spec describes
uses `fields`" (92_eei_decisions.md D2; 42_data_transfer.md R102).  It is read by the reset state only;
no meaning looks at it. -/
def defaultMoveSemantics : MoveSemantics := .fields

/-- DESIGN CHOICE (log entry 4).  The default of `SHIFT_GE16` (92_eei_decisions.md D3; 41_alu.md R82).
It is read by the reset state only; no meaning looks at it. -/
def defaultShiftGe16 : ShiftGe16 := .zero

/-- The parameters of the machine the reset state describes (00_scope.md section 4). -/
def defaultConfig : Config := ⟨defaultMoveSemantics, defaultShiftGe16⟩

/-- `HALT_WORD`, "value `6 << 12`" (00_scope.md R3; 30_encoding.md R57). -/
def haltWord : Word := 0x6000

/-- What a data cell never stored to reads as: every cell is 0 at the start of a run (10_state.md R22,
R24; 20_memory.md R34). -/
def dataBlank : Word := 0

/-- What a program address past the supplied program holds: the padding word (10_state.md R24;
70_reset_and_hazards.md R145). -/
def progBlank : Word := haltWord

end Sys2Proof.Machine
end

