-- ==== Sys2Proof/Machine/State.lean ====
section
/-! DEFINITION. The state of the core: the whole tuple of 10_state.md R26 as plain data, and the model's
own parameter field. -/

namespace Sys2Proof.Machine

/-- The run status (10_state.md R20). -/
inductive RunStatus where
  | running
  | halted
  | faulted
  deriving DecidableEq, Repr

/-- The index space of an out-of-range value: `DATA`, `PROG`, `REG` (10_state.md R21; 20_memory.md
R30). -/
inductive Space where
  | data
  | prog
  | reg
  deriving DecidableEq, Repr

/-- The fault record: the fault taxonomy of 60_exceptions.md R120 with the offending value
(10_state.md R21). -/
inductive FaultRecord where
  /-- Kind (a), `OutOfRange(space, index)` (60_exceptions.md R121). -/
  | outOfRange (space : Space) (index : Nat)
  /-- Kind (b), `InvalidAluMode(mode)`, the 12-bit value (R122). -/
  | invalidAluMode (mode : BitVec 12)
  /-- Kind (c), `InvalidOpcode(opcode)`, the 4-bit value (R123). -/
  | invalidOpcode (opcode : BitVec 4)
  /-- `UnspecifiedShift(b)`, only under `SHIFT_GE16 = fault` (R129). -/
  | unspecifiedShift (amount : Word)
  deriving DecidableEq, Repr

/-- One cell of a memory: a word index and the word there.  There is no byte view: "A model stores
each cell as one 16-bit value and must not introduce a byte-addressed view" (20_memory.md R37; log
entry 1). -/
abbrev Cell := Nat × Word

/-- A memory: its cells in strictly rising order of address, none holding what an unlisted address
reads as (`Memory.wf`, in Machine/Ops.lean). -/
abbrev Memory := List Cell

/-- A model-level stop with a fault: there is none.  Every fault of the spec is an effect on the state
(`status`, `fault`; 60_exceptions.md R124) and so a next state; nothing raises this type, which is safe:
no step of this model stops short of what the spec says (log entry 5). -/
inductive Fault where
  deriving DecidableEq, Repr

/-- A refusal: an instruction the model gives no meaning. -/
inductive Refusal where
  /-- Raised by an arm of `exec` whose instruction has no meaning yet; no arm raises it in this model.
  Safe: a refused step proves nothing about what follows. -/
  | notModelled (mnemonic : String)
  deriving DecidableEq, Repr

/-- The complete state of the core (10_state.md R26), and `config`, the model's own field. -/
structure State where
  /-- The register file `x[0]` to `x[7]` (R11). -/
  regs : Vector Word 8
  /-- The program counter (R15). -/
  pc : Word
  /-- The instruction register (R19). -/
  ir : Word
  /-- The run status (R20). -/
  status : RunStatus
  /-- The fault record, `none` until a step faults (R21). -/
  fault : Option FaultRecord
  /-- The data RAM `DM[0]` to `DM[15]` (R22). -/
  dmem : Memory
  /-- The instruction RAM `IM[0]` to `IM[63]` (R23). -/
  imem : Memory
  /-- The MODEL'S field, not the spec's: the two parameters of 00_scope.md section 4, plain data that
  no step changes, so that a statement over all states holds for all their values (log entry 2). -/
  config : Config
  deriving DecidableEq, Repr

/-- The machine right after reset with the empty program, which the host pads to 64 HALT words
(10_state.md R24; 70_reset_and_hazards.md R140, R145). -/
def State.reset : State where
  regs := Vector.replicate 8 0
  pc := 0
  ir := 0
  status := .running
  fault := none
  dmem := []
  imem := []
  config := defaultConfig

end Sys2Proof.Machine
end

