-- ==== Sys2Proof/Machine/Flags.lean ====
section
/-! DEFINITION. The two computations the spec calls flags: the compare nibble (41_alu.md R90), which goes
to `x[3]`, and the masked bit a JUMP tests in `x[4]` (43_control.md R110).  There is no flags register
beside `x[4]` and no carry, borrow, overflow, zero or sign flag (10_state.md R17). -/

namespace Sys2Proof.Machine

/-- "bit3 = (a>b), bit2 = (a<b), bit1 = (a==b), bit0 = 1 (constant)", unsigned, bits 15 to 4 zero
(R90). -/
def compareNibble (a b : Word) : Word :=
  0#12 ++ BitVec.ofBool (decide (b.toNat < a.toNat)) ++ BitVec.ofBool (decide (a.toNat < b.toNat)) ++
    BitVec.ofBool (decide (a = b)) ++ 1#1

/-- `flagBit = x[4] & (1 << jumpType)`, a word: 0 or `2^jumpType` (R110). -/
def flagBit (flags : Word) (jumpType : BitVec 2) : Word := flags &&& (1#16 <<< jumpType.toNat)

/-- The jump condition: "`flagBit == 1` exactly (not merely nonzero)" (R110). -/
def jumpTaken (flags : Word) (jumpType : BitVec 2) : Bool := flagBit flags jumpType == 1

end Sys2Proof.Machine
end

