-- ==== Sys2Proof/Machine/Operands.lean ====
section
/-! DEFINITION. How operands are assembled from fields (30_encoding.md R58): every field is the unsigned
integer its bits spell. -/

namespace Sys2Proof.Machine

/-- `zext_8(value)`: 0 to 255, the upper 8 bits 0 (R58 item 1; 42_data_transfer.md R105). -/
def zext8 (v : BitVec 8) : Word := v.setWidth 16

/-- The one addressing mode, absolute: "the effective address is the 8-bit field as it stands"
(R58 item 2; 42_data_transfer.md section 1). -/
def effectiveAddr (addr : BitVec 8) : Nat := addr.toNat

/-- `pc + jumpSize` or `pc - jumpSize`, modulo 65536: sign-magnitude, counting words (R58 item 4;
43_control.md R110; 10_state.md R16). -/
def jumpAdjust (pc : Word) (sign : JumpSign) (size : BitVec 9) : Word :=
  match sign with
  | .forward => pc + size.setWidth 16
  | .backward => pc - size.setWidth 16

end Sys2Proof.Machine
end

