-- ==== Sys2Proof/Machine/Ops.lean ====
section
/-! DEFINITION. The named operations over memories and registers, taking a fault, halting, the fetch
and the program-counter update: the primitives of 00_scope.md section 5.3.  A primitive that can raise
answers in `Except FaultRecord`; `finish` turns that answer into the step's outcome. -/

namespace Sys2Proof.Machine

/-- The word at an address; `blank` is what an unlisted address reads as. -/
def Memory.read (blank : Word) : Memory → Nat → Word
  | [], _ => blank
  | (b, u) :: rest, a => if b = a then u else Memory.read blank rest a

/-- Put a word at an address, keeping the canonical form: addresses rising, no cell holding `blank`. -/
def Memory.write (blank : Word) : Memory → Nat → Word → Memory
  | [], a, v => if v = blank then [] else [(a, v)]
  | (b, u) :: rest, a, v =>
    if b < a then (b, u) :: Memory.write blank rest a v
    else if b = a then (if v = blank then rest else (a, v) :: rest)
    else if v = blank then (b, u) :: rest
    else (a, v) :: (b, u) :: rest

/-- Every cell lies at `lo` or above and below `size`, the addresses strictly rise, and no cell holds
`blank`. -/
def Memory.wfFrom (blank : Word) (size : Nat) : Nat → Memory → Bool
  | _, [] => true
  | lo, (a, v) :: rest =>
    decide (lo ≤ a) && decide (a < size) && decide (v ≠ blank) && Memory.wfFrom blank size (a + 1) rest

/-- The canonical form of a memory of `size` words. -/
def Memory.wf (blank : Word) (size : Nat) (m : Memory) : Bool := Memory.wfFrom blank size 0 m

/-- `x[i]` (10_state.md R11).  No slot is hardwired (R12). -/
def State.getReg (s : State) (i : Fin 8) : Word := s.regs[i]

/-- `x[i] <- v` (10_state.md R11, R12). -/
def State.setReg (s : State) (i : Fin 8) (v : Word) : State := { s with regs := s.regs.set i v }

/-- `pc <- target`. -/
def State.setPc (s : State) (target : Word) : State := { s with pc := target }

/-- `ir <- w` (10_state.md R19). -/
def State.setIr (s : State) (w : Word) : State := { s with ir := w }

/-- The data RAM with one word replaced. -/
def State.setData (s : State) (a : Nat) (v : Word) : State :=
  { s with dmem := Memory.write dataBlank s.dmem a v }

/-- `DM[a]` as the host or a LOAD reads it. -/
def State.dataAt (s : State) (a : Nat) : Word := Memory.read dataBlank s.dmem a

/-- `IM[a]` as the fetch reads it. -/
def State.progAt (s : State) (a : Nat) : Word := Memory.read progBlank s.imem a

/-- `RegCheck(i)`: an index of 8 or more raises `OutOfRange(REG, i)` (10_state.md R14). -/
def regCheck (i : BitVec 4) : Except FaultRecord (Fin 8) :=
  if h : i.toNat < nRegs then .ok ⟨i.toNat, h⟩ else .error (.outOfRange .reg i.toNat)

/-- `MemRead(addr, 1)` (20_memory.md R32). -/
def memRead (s : State) (a : Nat) : Except FaultRecord Word :=
  if a < dmemWords then .ok (s.dataAt a) else .error (.outOfRange .data a)

/-- `MemWrite(addr, 1, v)`: the check comes before the write (20_memory.md R33, R47). -/
def memWrite (s : State) (a : Nat) (v : Word) : Except FaultRecord State :=
  if a < dmemWords then .ok (s.setData a v) else .error (.outOfRange .data a)

/-- `ProgRead(addr)` (20_memory.md R36). -/
def progRead (s : State) (a : Nat) : Except FaultRecord Word :=
  if a < imemWords then .ok (s.progAt a) else .error (.outOfRange .prog a)

/-- TAKING A FAULT, one operation for every fault: `status <- FAULTED`, `fault <-` the record, and
"nothing else changes"; `pc` is not advanced and control goes nowhere (60_exceptions.md R124).  There is
no return from it (R128): only the reset event of Machine/Boot.lean leaves the state. -/
def State.raise (s : State) (f : FaultRecord) : State := { s with status := .faulted, fault := some f }

/-- `halt`: `status <- HALTED` and nothing else, not even `pc` (43_control.md R112). -/
def State.halt (s : State) : State := { s with status := .halted }

/-- Phase 4, `pc <- (pc + 1) mod 65536` (40_execution_cycle.md R74; 10_state.md R16). -/
def State.advance (s : State) : State := s.setPc (s.pc + 1)

/-- The end of an execute phase begun in `s`: the common program-counter update when it completed
(40_execution_cycle.md R74), the fault taken in `s` itself when it raised, so that nothing the step had
computed is written (60_exceptions.md R124). -/
def finish (s : State) (r : Except FaultRecord State) : Host.Outcome State Fault Refusal :=
  match r with
  | .ok t => .next t.advance
  | .error f => .next (s.raise f)

/-- Phase 1, `ir <- ProgRead(pc)`: on a fault `ir` keeps its old value (40_execution_cycle.md R71). -/
def fetch (s : State) : Except FaultRecord State := do
  let w ← progRead s s.pc.toNat
  return s.setIr w

/-- A core that is not running: "the core takes no step and changes no state"
(40_execution_cycle.md R78; 93_implementation_defined.md U23; log entry 6). -/
def hold (s : State) : Host.Outcome State Fault Refusal := .next s

end Sys2Proof.Machine
end

