-- ==== Sys2Proof/Machine/Alu.lean ====
section
/-! DEFINITION. The ALU function and the meanings of opcode 0 (41_alu.md). -/

namespace Sys2Proof.Machine

/-! The eleven results (R82 to R92). -/

/-- The amount a shift uses when `b >= 16`, by `SHIFT_GE16`: `none` means every bit is shifted out
(R82, R83). -/
def wideShift (c : Config) (shifted : Nat → Word) (b : Word) : Except FaultRecord Word :=
  match c.shiftGe16 with
  | .zero => .ok 0
  | .mod16 => .ok (shifted (b.toNat % wordBits))
  | .fault => .error (.unspecifiedShift b)

/-- Mode 0: `a << b` for `b <= 15`, `SHIFT_GE16` beyond (R82). -/
def aluShl (c : Config) (a b : Word) : Except FaultRecord Word :=
  if b.toNat < wordBits then .ok (a <<< b.toNat) else wideShift c (fun n => a <<< n) b

/-- Mode 1: the logical `a >> b` for `b <= 15`, `SHIFT_GE16` beyond (R83). -/
def aluShr (c : Config) (a b : Word) : Except FaultRecord Word :=
  if b.toNat < wordBits then .ok (a >>> b.toNat) else wideShift c (fun n => a >>> n) b

/-- Mode 2 (R84). -/
def aluAnd (a b : Word) : Word := a &&& b

/-- Mode 3, "b ignored" (R85). -/
def aluNot (a : Word) : Word := ~~~a

/-- Mode 4 (R86). -/
def aluXor (a b : Word) : Word := a ^^^ b

/-- Mode 5 (R87). -/
def aluOr (a b : Word) : Word := a ||| b

/-- Mode 6, wraps (R88). -/
def aluAdd (a b : Word) : Word := a + b

/-- Mode 7, A minus B, wraps (R89). -/
def aluSub (a b : Word) : Word := a - b

/-- Mode 8 (R90; 90_conflicts.md C1). -/
def aluCmp (a b : Word) : Word := compareNibble a b

/-- Mode 9, wraps (R91). -/
def aluInc (a : Word) : Word := a + 1

/-- Mode 10, wraps (R92). -/
def aluDec (a : Word) : Word := a - 1

/-- `ALU(mode, a, b)`: a word, or `InvalidAluMode(mode)` for every mode of 11 or more (R80, R93). -/
def alu (c : Config) (mode : BitVec 12) (a b : Word) : Except FaultRecord Word :=
  match mode.toNat with
  | 0 => aluShl c a b
  | 1 => aluShr c a b
  | 2 => .ok (aluAnd a b)
  | 3 => .ok (aluNot a)
  | 4 => .ok (aluXor a b)
  | 5 => .ok (aluOr a b)
  | 6 => .ok (aluAdd a b)
  | 7 => .ok (aluSub a b)
  | 8 => .ok (aluCmp a b)
  | 9 => .ok (aluInc a)
  | 10 => .ok (aluDec a)
  | _ => .error (.invalidAluMode mode)

/-- `ALU_instr`: `x[3] <- ALU(mode, x[1], x[2])`, then the common update (R81). -/
def aluInstr (mode : BitVec 12) (s : State) : Host.Outcome State Fault Refusal :=
  finish s do
    let v ← alu s.config mode (s.getReg 1) (s.getReg 2)
    return s.setReg 3 v

/-! The meanings: R81 at each mode. -/

/-- `SHL` (R82). -/
def execShl (s : State) : Host.Outcome State Fault Refusal := aluInstr 0 s

/-- `SHR` (R83). -/
def execShr (s : State) : Host.Outcome State Fault Refusal := aluInstr 1 s

/-- `AND` (R84). -/
def execAnd (s : State) : Host.Outcome State Fault Refusal := aluInstr 2 s

/-- `NOT` (R85). -/
def execNot (s : State) : Host.Outcome State Fault Refusal := aluInstr 3 s

/-- `XOR` (R86). -/
def execXor (s : State) : Host.Outcome State Fault Refusal := aluInstr 4 s

/-- `OR` (R87). -/
def execOr (s : State) : Host.Outcome State Fault Refusal := aluInstr 5 s

/-- `ADD` (R88). -/
def execAdd (s : State) : Host.Outcome State Fault Refusal := aluInstr 6 s

/-- `SUB` (R89). -/
def execSub (s : State) : Host.Outcome State Fault Refusal := aluInstr 7 s

/-- `CMP` (R90): the nibble goes to `x[3]`, not to `x[4]` (R95). -/
def execCmp (s : State) : Host.Outcome State Fault Refusal := aluInstr 8 s

/-- `INC` (R91). -/
def execInc (s : State) : Host.Outcome State Fault Refusal := aluInstr 9 s

/-- `DEC` (R92). -/
def execDec (s : State) : Host.Outcome State Fault Refusal := aluInstr 10 s

/-! The invalid modes: the same instruction, whose ALU raises `InvalidAluMode(mode)` (R93, R122). -/

/-- Mode 11 (R93). -/
def execIllegalAluMode000B (s : State) : Host.Outcome State Fault Refusal := aluInstr 11 s

/-- Modes 12 to 15 (R93). -/
def execIllegalAluMode000C (mode : BitVec 12) (s : State) : Host.Outcome State Fault Refusal :=
  aluInstr mode s

/-- Modes 16 to 31 (R93). -/
def execIllegalAluMode0010 (mode : BitVec 12) (s : State) : Host.Outcome State Fault Refusal :=
  aluInstr mode s

/-- Modes 32 to 63 (R93). -/
def execIllegalAluMode0020 (mode : BitVec 12) (s : State) : Host.Outcome State Fault Refusal :=
  aluInstr mode s

/-- Modes 64 to 127 (R93). -/
def execIllegalAluMode0040 (mode : BitVec 12) (s : State) : Host.Outcome State Fault Refusal :=
  aluInstr mode s

/-- Modes 128 to 255 (R93). -/
def execIllegalAluMode0080 (mode : BitVec 12) (s : State) : Host.Outcome State Fault Refusal :=
  aluInstr mode s

/-- Modes 256 to 511 (R93). -/
def execIllegalAluMode0100 (mode : BitVec 12) (s : State) : Host.Outcome State Fault Refusal :=
  aluInstr mode s

/-- Modes 512 to 1023 (R93). -/
def execIllegalAluMode0200 (mode : BitVec 12) (s : State) : Host.Outcome State Fault Refusal :=
  aluInstr mode s

/-- Modes 1024 to 2047 (R93). -/
def execIllegalAluMode0400 (mode : BitVec 12) (s : State) : Host.Outcome State Fault Refusal :=
  aluInstr mode s

/-- Modes 2048 to 4095 (R93). -/
def execIllegalAluMode0800 (mode : BitVec 12) (s : State) : Host.Outcome State Fault Refusal :=
  aluInstr mode s

end Sys2Proof.Machine
end

