-- ==== Sys2Proof/Machine/Control.lean ====
section
/-! DEFINITION. The meanings of JUMP and HALT (43_control.md) and of the nine illegal opcodes
(30_encoding.md R59, R60; 60_exceptions.md R123). -/

namespace Sys2Proof.Machine

/-- `pc` after the execute phase of a JUMP, before the common `+1`: adjusted by the size when
`x[4] & (1 << t)` is exactly 1, kept otherwise (R110, R111 items 1 and 2). -/
def jumpBase (flags pc : Word) (jumpType : BitVec 2) (jumpSign : JumpSign) (jumpSize : BitVec 9) : Word :=
  if jumpTaken flags jumpType then jumpAdjust pc jumpSign jumpSize else pc

/-- `JMP t, ±n`: the possible adjustment, then, taken or not, the common `pc + 1` (R110, R111).  The target
is not checked (R114). -/
def execJmp (jumpType : BitVec 2) (jumpSign : JumpSign) (jumpSize : BitVec 9) (s : State) :
    Host.Outcome State Fault Refusal :=
  finish s (.ok (s.setPc (jumpBase (s.getReg 4) s.pc jumpType jumpSign jumpSize)))

/-- `HALT`: "terminate the loop successfully; no further mutation"; phase 4 is skipped (R112). -/
def execHalt (s : State) : Host.Outcome State Fault Refusal := .next s.halt

/-- Opcode 7 (30_encoding.md R59). -/
def execIllegalOp7 (s : State) : Host.Outcome State Fault Refusal := finish s (.error (.invalidOpcode 7))

/-- Opcode 8 (30_encoding.md R60; 92_eei_decisions.md D1). -/
def execIllegalOp8 (s : State) : Host.Outcome State Fault Refusal := finish s (.error (.invalidOpcode 8))

/-- Opcode 9 (30_encoding.md R60; 92_eei_decisions.md D1). -/
def execIllegalOp9 (s : State) : Host.Outcome State Fault Refusal := finish s (.error (.invalidOpcode 9))

/-- Opcode 10 (30_encoding.md R60; 92_eei_decisions.md D1). -/
def execIllegalOp10 (s : State) : Host.Outcome State Fault Refusal :=
  finish s (.error (.invalidOpcode 10))

/-- Opcode 11 (30_encoding.md R60; 92_eei_decisions.md D1). -/
def execIllegalOp11 (s : State) : Host.Outcome State Fault Refusal :=
  finish s (.error (.invalidOpcode 11))

/-- Opcode 12 (30_encoding.md R59). -/
def execIllegalOp12 (s : State) : Host.Outcome State Fault Refusal :=
  finish s (.error (.invalidOpcode 12))

/-- Opcode 13 (30_encoding.md R59). -/
def execIllegalOp13 (s : State) : Host.Outcome State Fault Refusal :=
  finish s (.error (.invalidOpcode 13))

/-- Opcode 14 (30_encoding.md R59). -/
def execIllegalOp14 (s : State) : Host.Outcome State Fault Refusal :=
  finish s (.error (.invalidOpcode 14))

/-- Opcode 15 (30_encoding.md R59). -/
def execIllegalOp15 (s : State) : Host.Outcome State Fault Refusal :=
  finish s (.error (.invalidOpcode 15))

end Sys2Proof.Machine
end

