-- ==== Sys2Proof/Machine/Transfer.lean ====
section
/-! DEFINITION. The meanings of LOAD, STORE, MOVE and LOAD-IMMEDIATE (42_data_transfer.md), each with
its checks in the order of 60_exceptions.md R126. -/

namespace Sys2Proof.Machine

/-- `LD xr, [a]`: the address check, then the index check, then `x[reg] <- DM[addr]` (R100). -/
def execLd (reg : BitVec 4) (addr : BitVec 8) (s : State) : Host.Outcome State Fault Refusal :=
  finish s do
    let v ← memRead s (effectiveAddr addr)
    let r ← regCheck reg
    return s.setReg r v

/-- `ST xr, [a]`: the index check, then the address check, then `DM[addr] <- x[reg]` (R101). -/
def execSt (reg : BitVec 4) (addr : BitVec 8) (s : State) : Host.Outcome State Fault Refusal :=
  finish s do
    let r ← regCheck reg
    memWrite s (effectiveAddr addr) (s.getReg r)

/-- `MOV xd, xs` under `MOVE_SEMANTICS = fields`: source check, destination check, `x[dst] <- x[src]`
(R103). -/
def moveFields (src dst : BitVec 4) (s : State) : Except FaultRecord State := do
  let i ← regCheck src
  let j ← regCheck dst
  return s.setReg j (s.getReg i)

/-- `MOV` under `MOVE_SEMANTICS = literal`: `x[0] <- x[0]`, no fault whatever the fields (R104). -/
def moveLiteral (s : State) : Except FaultRecord State := .ok (s.setReg 0 (s.getReg 0))

/-- `MOV xd, xs`, by the parameter `MOVE_SEMANTICS` (R102). -/
def execMov (src dst : BitVec 4) (s : State) : Host.Outcome State Fault Refusal :=
  match s.config.moveSemantics with
  | .fields => finish s (moveFields src dst s)
  | .literal => finish s (moveLiteral s)

/-- `LI xr, v`: the index check, then `x[reg] <- zext_8(value)` (R105). -/
def execLi (reg : BitVec 4) (value : BitVec 8) (s : State) : Host.Outcome State Fault Refusal :=
  finish s do
    let r ← regCheck reg
    return s.setReg r (zext8 value)

end Sys2Proof.Machine
end

