-- ==== Sys2Proof/Machine/Dispatch.lean ====
section
/-! DEFINITION. The dispatch on the decoded instruction (40_execution_cycle.md R73): phases 3 and 4 of a
step.  It does not look at `status`; `step` takes a step only while the core runs (R70, R78). -/

namespace Sys2Proof.Machine

def exec (i : Instr) (s : State) : Host.Outcome State Fault Refusal :=
  match i with
  | .shl => Sys2Proof.Machine.execShl s
  | .shr => Sys2Proof.Machine.execShr s
  | .and => Sys2Proof.Machine.execAnd s
  | .not => Sys2Proof.Machine.execNot s
  | .xor => Sys2Proof.Machine.execXor s
  | .or => Sys2Proof.Machine.execOr s
  | .add => Sys2Proof.Machine.execAdd s
  | .sub => Sys2Proof.Machine.execSub s
  | .cmp => Sys2Proof.Machine.execCmp s
  | .inc => Sys2Proof.Machine.execInc s
  | .dec => Sys2Proof.Machine.execDec s
  | .illegalAluMode000B => Sys2Proof.Machine.execIllegalAluMode000B s
  | .illegalAluMode000C mode => Sys2Proof.Machine.execIllegalAluMode000C mode s
  | .illegalAluMode0010 mode => Sys2Proof.Machine.execIllegalAluMode0010 mode s
  | .illegalAluMode0020 mode => Sys2Proof.Machine.execIllegalAluMode0020 mode s
  | .illegalAluMode0040 mode => Sys2Proof.Machine.execIllegalAluMode0040 mode s
  | .illegalAluMode0080 mode => Sys2Proof.Machine.execIllegalAluMode0080 mode s
  | .illegalAluMode0100 mode => Sys2Proof.Machine.execIllegalAluMode0100 mode s
  | .illegalAluMode0200 mode => Sys2Proof.Machine.execIllegalAluMode0200 mode s
  | .illegalAluMode0400 mode => Sys2Proof.Machine.execIllegalAluMode0400 mode s
  | .illegalAluMode0800 mode => Sys2Proof.Machine.execIllegalAluMode0800 mode s
  | .ld reg addr => Sys2Proof.Machine.execLd reg addr s
  | .st reg addr => Sys2Proof.Machine.execSt reg addr s
  | .mov src dst => Sys2Proof.Machine.execMov src dst s
  | .jmp jumpType jumpSign jumpSize => Sys2Proof.Machine.execJmp jumpType jumpSign jumpSize s
  | .li reg value => Sys2Proof.Machine.execLi reg value s
  | .halt => Sys2Proof.Machine.execHalt s
  | .illegalOp7 => Sys2Proof.Machine.execIllegalOp7 s
  | .illegalOp8 => Sys2Proof.Machine.execIllegalOp8 s
  | .illegalOp9 => Sys2Proof.Machine.execIllegalOp9 s
  | .illegalOp10 => Sys2Proof.Machine.execIllegalOp10 s
  | .illegalOp11 => Sys2Proof.Machine.execIllegalOp11 s
  | .illegalOp12 => Sys2Proof.Machine.execIllegalOp12 s
  | .illegalOp13 => Sys2Proof.Machine.execIllegalOp13 s
  | .illegalOp14 => Sys2Proof.Machine.execIllegalOp14 s
  | .illegalOp15 => Sys2Proof.Machine.execIllegalOp15 s

end Sys2Proof.Machine
end

