-- ==== Sys2Proof/Machine/Step.lean ====
section
/-! DEFINITION. One step of the core: fetch, decode, execute, program-counter update
(40_execution_cycle.md R70), and where the host's checks place an instruction. -/

namespace Sys2Proof.Machine

/-- A step is taken only while `status = RUNNING` (R70, R78): fetch (R71), decode `ir` (R72), execute
with the common update (R73, R74).  A fetch that raises ends the step with the fault taken. -/
def step (s : State) : Host.Outcome State Fault Refusal :=
  match s.status with
  | .running =>
    match fetch s with
    | .ok t => exec (decode t.ir) t
    | .error f => finish s (.error f)
  | .halted => hold s
  | .faulted => hold s

/-- The address a placed word goes to: `pc` where it addresses an instruction, else the entry point 0
(70_reset_and_hazards.md R141). -/
def fetchAddr (s : State) : Word := if s.pc.toNat < imemWords then s.pc else 0

/-- `s` with a table word stored where the next step fetches, the core running there (log entry 9): the
stand-in for the program image the host presents at reset (70_reset_and_hazards.md R143). -/
def State.withFetchWord (s : State) (nbits w : Nat) : State :=
  { s with
    pc := fetchAddr s
    status := .running
    fault := none
    imem := Memory.write progBlank s.imem (fetchAddr s).toNat (tableWord nbits w) }

end Sys2Proof.Machine
end

