-- ==== Sys2Proof/Machine/Boot.lean ====
section
/-! DEFINITION. The boundary to the host (70_reset_and_hazards.md sections 1 and 3): the program image
in, with the host's padding and length check; the reset event; the final state out, with the numeric
codes of 60_exceptions.md R125.  The host has no other move (R147). -/

namespace Sys2Proof.Machine

/-- A program image as it reaches the core: "exactly 64 words" (R143). -/
abbrev Image := Vector Word 64

/-- `pad(p)`: the words of `p`, then HALT words up to 64 (R145). -/
def padWords (p : List Word) : List Word := p ++ List.replicate (imemWords - p.length) haltWord

/-- A program of at most 64 words is padded to 64. -/
theorem padWords_length (p : List Word) (h : p.length ≤ imemWords) : (padWords p).length = 64 := by
  simp only [padWords, List.length_append, List.length_replicate, imemWords] at *
  omega

/-- The host's part before reset: the padded image (R145), or none for a program longer than 64 words,
which "never reaches the core" (R146). -/
def hostImage (p : List Word) : Option Image :=
  if h : p.length ≤ imemWords then some ⟨(padWords p).toArray, padWords_length p h⟩ else none

/-- The cells of consecutive words from an address on, in canonical form. -/
def cellsFrom (blank : Word) : Nat → List Word → Memory
  | _, [] => []
  | a, w :: ws => if w = blank then cellsFrom blank (a + 1) ws else (a, w) :: cellsFrom blank (a + 1) ws

/-- The reset event, in any state: the image into the instruction RAM, every other item at its reset
value, nothing of the old run kept (R140; 10_state.md R24).  The parameters are not state and stay
(30_encoding.md R64). -/
def State.resetEvent (s : State) (image : Image) : State :=
  { State.reset with imem := cellsFrom progBlank 0 image.toList, config := s.config }

/-- What the host does with a program: reset the core with its image, or reject it, when "no reset
happens, no step is taken and no core fault is recorded" (R146). -/
def State.hostStart (s : State) (p : List Word) : State :=
  match hostImage p with
  | some image => s.resetEvent image
  | none => s

/-- What the host can read once the run has ended (R144): the status, the fault record and the 16 words
of the data RAM, and the registers and `pc`, which "a model exposes too". -/
structure HostView where
  status : RunStatus
  fault : Option FaultRecord
  dataRam : List Word
  regs : Vector Word 8
  pc : Word
  deriving DecidableEq, Repr

/-- The 16 words of the data RAM in address order: the host's dump (R144). -/
def State.dataDump (s : State) : List Word := (List.range dmemWords).map s.dataAt

/-- The host's read: nothing "while `status = RUNNING`" (R147), the final state after it, whether by HALT
or by a fault (R144; 60_exceptions.md R133). -/
def State.hostRead (s : State) : Option HostView :=
  match s.status with
  | .running => none
  | .halted => some ⟨s.status, s.fault, s.dataDump, s.regs, s.pc⟩
  | .faulted => some ⟨s.status, s.fault, s.dataDump, s.regs, s.pc⟩

/-- The numeric fault code of a status port: 0 for no fault (60_exceptions.md R125). -/
def faultCode : Option FaultRecord → Nat
  | none => 0
  | some (.outOfRange _ _) => 1
  | some (.invalidAluMode _) => 2
  | some (.invalidOpcode _) => 3
  | some (.unspecifiedShift _) => 4

/-- The numeric code of an out-of-range space (60_exceptions.md R125). -/
def spaceCode : Space → Nat
  | .data => 0
  | .prog => 1
  | .reg => 2

end Sys2Proof.Machine
end

