-- ==== Sys2Proof/Safety.lean ====
section
/-! DEFINITION. What claims are stated in: the end of a run, a run that has gone wrong, and the invariant
of the state. -/

namespace Sys2Proof.Machine

/-- The run has ended: `status != RUNNING` (70_reset_and_hazards.md R148). -/
def State.ended (s : State) : Bool := decide (s.status ≠ .running)

/-- "a run that faults has gone wrong, whatever the data memory shows" (60_exceptions.md R133). -/
def State.goneWrong (s : State) : Bool := decide (s.status = .faulted)

/-- `n` steps from `s` lead to `t`. -/
inductive StepsTo : Nat → State → State → Prop where
  | refl (s : State) : StepsTo 0 s s
  | cons {n : Nat} {s t u : State} (h : step s = .next t) (r : StepsTo n t u) : StepsTo (n + 1) s u

/-- The run from `s` ends in `t` after `n` steps: `t` is "the first state in which `status != RUNNING`"
(70_reset_and_hazards.md R148). -/
def EndsIn (n : Nat) (s t : State) : Prop :=
  StepsTo n s t ∧ t.ended = true ∧ ∀ k u, k < n → StepsTo k s u → u.ended = false

/-- The offending value of a record is one that the spec's check can report: the bounds of 60_exceptions.md
R121 to R123 and R129, within the width of the value's field. -/
def FaultRecord.legal (c : Config) : FaultRecord → Bool
  | .outOfRange .data i => decide (16 ≤ i ∧ i < 256)
  | .outOfRange .prog i => decide (64 ≤ i ∧ i < 65536)
  | .outOfRange .reg i => decide (8 ≤ i ∧ i < 16)
  | .invalidAluMode m => decide (11 ≤ m.toNat)
  | .invalidOpcode o => decide (7 ≤ o.toNat)
  | .unspecifiedShift b => decide (c.shiftGe16 = .fault ∧ 16 ≤ b.toNat)

/-- Every address of both memories reads as before, and the parameters are as before. -/
def SameMemory (s t : State) : Prop :=
  (∀ a, t.dataAt a = s.dataAt a) ∧ (∀ a, t.progAt a = s.progAt a) ∧ t.config = s.config

/-- `t` is `s` with a fault taken: only `status` and `fault` differ (60_exceptions.md R124). -/
def FaultTaken (s t : State) : Prop := ∃ f, t = { s with status := .faulted, fault := some f }

/-- The register slot an instruction names as its destination, if it has one: the column "Writes" of
10_state.md R13.  An index of 8 or more names no slot. -/
def destinationOf (c : Config) : Instr → Option Nat
  | .shl | .shr | .and | .not | .xor | .or | .add | .sub | .cmp | .inc | .dec => some 3
  | .illegalAluMode000B | .illegalAluMode000C _ | .illegalAluMode0010 _ | .illegalAluMode0020 _ => none
  | .illegalAluMode0040 _ | .illegalAluMode0080 _ | .illegalAluMode0100 _ | .illegalAluMode0200 _ => none
  | .illegalAluMode0400 _ | .illegalAluMode0800 _ => none
  | .ld reg _ => some reg.toNat
  | .li reg _ => some reg.toNat
  | .mov _ dst => if c.moveSemantics = .fields then some dst.toNat else some 0
  | .st _ _ | .jmp _ _ _ | .halt => none
  | .illegalOp7 | .illegalOp8 | .illegalOp9 | .illegalOp10 | .illegalOp11 | .illegalOp12 => none
  | .illegalOp13 | .illegalOp14 | .illegalOp15 => none

/-- The data address an instruction stores to, if it is a STORE (20_memory.md R33, R39). -/
def storedAddress : Instr → Option Nat
  | .st _ addr => some (effectiveAddr addr)
  | .shl | .shr | .and | .not | .xor | .or | .add | .sub | .cmp | .inc | .dec => none
  | .illegalAluMode000B | .illegalAluMode000C _ | .illegalAluMode0010 _ | .illegalAluMode0020 _ => none
  | .illegalAluMode0040 _ | .illegalAluMode0080 _ | .illegalAluMode0100 _ | .illegalAluMode0200 _ => none
  | .illegalAluMode0400 _ | .illegalAluMode0800 _ => none
  | .ld _ _ | .li _ _ | .mov _ _ | .jmp _ _ _ | .halt => none
  | .illegalOp7 | .illegalOp8 | .illegalOp9 | .illegalOp10 | .illegalOp11 | .illegalOp12 => none
  | .illegalOp13 | .illegalOp14 | .illegalOp15 => none

/-- The fault a fetched word raises, if any, in the order of 60_exceptions.md R126, on the word read as a
number; `b` is `x[2]`. -/
def faultOfWord (c : Config) (w b : Word) : Option FaultRecord :=
  let low := w.toNat % 4096
  let reg := w.toNat / 256 % 16
  let addr := w.toNat % 256
  let src := w.toNat / 16 % 16
  let dst := w.toNat % 16
  match w.toNat / 4096 with
  | 0 =>
    if 11 ≤ low then some (.invalidAluMode (BitVec.ofNat 12 low))
    else if low ≤ 1 ∧ 16 ≤ b.toNat ∧ c.shiftGe16 = .fault then some (.unspecifiedShift b)
    else none
  | 1 =>
    if 16 ≤ addr then some (.outOfRange .data addr)
    else if 8 ≤ reg then some (.outOfRange .reg reg)
    else none
  | 2 =>
    if 8 ≤ reg then some (.outOfRange .reg reg)
    else if 16 ≤ addr then some (.outOfRange .data addr)
    else none
  | 3 =>
    if c.moveSemantics = .literal then none
    else if 8 ≤ src then some (.outOfRange .reg src)
    else if 8 ≤ dst then some (.outOfRange .reg dst)
    else none
  | 4 => none
  | 5 => if 8 ≤ reg then some (.outOfRange .reg reg) else none
  | 6 => none
  | opcode => some (.invalidOpcode (BitVec.ofNat 4 opcode))

/-- The invariant: both memories are canonical and within their bounds (10_state.md R22, R23), a fault is
recorded exactly in the status `FAULTED` (R20, R21), and the record is one the spec's checks report
(60_exceptions.md R121 to R123, R129). -/
structure State.Inv (s : State) : Prop where
  dmem_wf : Memory.wf dataBlank 16 s.dmem = true
  imem_wf : Memory.wf progBlank 64 s.imem = true
  record_iff : s.fault.isSome = true ↔ s.status = .faulted
  record_legal : ∀ f, s.fault = some f → f.legal s.config = true

end Sys2Proof.Machine
end

