-- ==== Sys2Proof/Certificates/Slice0/Obligations.lean ====
section
/-! DEFINITION. The statements for the provers.  Each docstring names the rule of spec/ it formalises; a
clause that rests on a choice of the spec (`[decision: …]`) or of the model says so and names the log
entry. -/

open Sys2Proof Sys2Proof.Machine

/-! ### Reset and the host -/

/-- R24, R140, R143, R145: a reset with a program of at most 64 words, in ANY state, gives registers, `pc`,
`ir` and data RAM 0, status RUNNING, no fault, and the program followed by `0x6000` in the instruction
RAM.  The parameters stay (log entry 2).  That a reset may come in any state is decision D9. -/
def Obligations.ResetEventGivesResetValues : Prop :=
  ∀ (s : State) (p : List Word), p.length ≤ 64 →
    (∀ i, (s.hostStart p).getReg i = 0) ∧ (s.hostStart p).pc = 0 ∧ (s.hostStart p).ir = 0 ∧
    (s.hostStart p).status = .running ∧ (s.hostStart p).fault = none ∧
    (∀ a, (s.hostStart p).dataAt a = 0) ∧
    (∀ a, (s.hostStart p).progAt a = if a < p.length then p.getD a 0 else 0x6000) ∧
    (s.hostStart p).config = s.config

/-- R24: `State.reset` is the state the reset event leaves with the empty program, under the default
parameters (log entries 3 and 4): registers, `pc`, `ir` and data 0, RUNNING, no fault. -/
def Obligations.ResetStateIsTheEmptyProgram : Prop :=
  (∀ s : State, s.config = State.reset.config → s.hostStart [] = State.reset) ∧
  (∀ i, State.reset.getReg i = 0) ∧ State.reset.pc = 0 ∧ State.reset.ir = 0 ∧
  State.reset.status = .running ∧ State.reset.fault = none ∧
  (∀ a, State.reset.dataAt a = 0) ∧ (∀ a, State.reset.progAt a = 0x6000) ∧
  State.reset.config = ⟨.fields, .zero⟩

/-- R146: an image longer than 64 words never reaches the core: no reset, no step, no fault recorded. -/
def Obligations.LongProgramNeverReachesTheCore : Prop :=
  ∀ (s : State) (p : List Word), 64 < p.length → hostImage p = none ∧ s.hostStart p = s

/-- R145: `pad(p)`, for a sequence of `n <= 64` words, is the 64-word image whose word `i` is `p[i]` for `i < n` and
`0x6000` beyond; an empty program pads to 64 HALTs. -/
def Obligations.HostPadsTheProgram : Prop :=
  (∀ p : List Word, p.length ≤ 64 → ∃ image, hostImage p = some image ∧
    ∀ i : Fin 64, image[i] = if h : i.val < p.length then p[i.val] else 0x6000) ∧
  hostImage [] = some (Vector.replicate 64 0x6000)

/-- R140, R128: nothing of the old run survives a reset: two states of one machine reset with one program
are the same state, whatever they held. -/
def Obligations.ResetForgetsTheOldRun : Prop :=
  ∀ (s t : State) (p : List Word), p.length ≤ 64 → s.config = t.config → s.hostStart p = t.hostStart p

/-- R144, R147: the host reads nothing while the core runs; once it has halted or faulted the host reads the
status, the record, the 16 data words, the registers and `pc` as they stand. -/
def Obligations.HostReadsTheFinalState : Prop :=
  ∀ s : State, (s.status = .running → s.hostRead = none) ∧
    (s.status ≠ .running → ∃ v, s.hostRead = some v ∧ v.status = s.status ∧ v.fault = s.fault ∧
      v.dataRam.length = 16 ∧ (∀ a, a < 16 → v.dataRam[a]? = some (s.dataAt a)) ∧
      v.regs = s.regs ∧ v.pc = s.pc)

/-- R125 (decision D6): the numeric codes of the fault record and of its space. -/
def Obligations.FaultCodesFollowTheLetters : Prop :=
  faultCode none = 0 ∧ (∀ sp i, faultCode (some (.outOfRange sp i)) = 1) ∧
  (∀ m, faultCode (some (.invalidAluMode m)) = 2) ∧ (∀ o, faultCode (some (.invalidOpcode o)) = 3) ∧
  (∀ b, faultCode (some (.unspecifiedShift b)) = 4) ∧
  spaceCode .data = 0 ∧ spaceCode .prog = 1 ∧ spaceCode .reg = 2

/-! ### Encoding -/

/-- R50 to R63: decoding the canonical word of a well-formed instruction gives the instruction back, every
operand at every value of its field. -/
def Obligations.DecodeOfEncodeIsTheInstruction : Prop :=
  ∀ i : Instr, i.wellFormed = true → decode (encode i) = i

/-- R63, R65: every word decodes to a well-formed instruction whose canonical word is the word with its
ignored bits cleared.  That the low 12 bits of opcodes 7 to 15 are among the ignored bits rests on R59 and R60
("whatever the low 12 bits are"), and that the encoder writes 0 there is the model's (log entry 15). -/
def Obligations.EncodeOfDecodeIsTheCanonicalWord : Prop :=
  ∀ w : Word, (decode w).wellFormed = true ∧ encode (decode w) = canonicalWord w

/-- R63, R55, R57: the only bits decoding ignores are `ir[11:8]` of MOVE and `ir[11:0]` of HALT (and of the
illegal opcodes, R59, R60, where clearing them is log entry 15): two words decode alike exactly when they agree
on every other bit. -/
def Obligations.OnlyTheIgnoredBitsAreIgnored : Prop :=
  ∀ v w : Word, decode v = decode w ↔ canonicalWord v = canonicalWord w

/-- 30_encoding.md section 5: the 36 rows of the opcode table are pairwise disjoint, and the row a word
decodes into is the one row that takes it. -/
def Obligations.OpcodeTableHasOneRowPerWord : Prop :=
  opcodeTable.length = 36 ∧
  ∀ (w : Word) (r : OpcodeRow), (r ∈ opcodeTable ∧ r.takes w = true) ↔ r = (decode w).row

/-- R52 to R57, R66: the words of the formats, as numbers. -/
def Obligations.EncodingsAreTheTablesNumbers : Prop :=
  [Instr.shl, .shr, .and, .not, .xor, .or, .add, .sub, .cmp, .inc, .dec].map (fun i => (encode i).toNat) =
    [0, 1, 2, 3, 4, 5, 6, 7, 8, 9, 10] ∧
  (∀ r a, (encode (.ld r a)).toNat = 0x1000 + r.toNat * 256 + a.toNat) ∧
  (∀ r a, (encode (.st r a)).toNat = 0x2000 + r.toNat * 256 + a.toNat) ∧
  (∀ src dst, (encode (.mov src dst)).toNat = 0x3000 + src.toNat * 16 + dst.toNat) ∧
  (∀ t n, (encode (.jmp t .forward n)).toNat = 0x4000 + t.toNat * 1024 + n.toNat) ∧
  (∀ t n, (encode (.jmp t .backward n)).toNat = 0x4000 + t.toNat * 1024 + 512 + n.toNat) ∧
  (∀ r v, (encode (.li r v)).toNat = 0x5000 + r.toNat * 256 + v.toNat) ∧
  (encode .halt).toNat = 0x6000

/-- 95_test_vectors.md section 2.1: sample words and what they decode to. -/
def Obligations.SampleWordsDecode : Prop :=
  decode 0x5107 = .li 1 7 ∧ decode 0x2100 = .st 1 0 ∧ decode 0x170F = .ld 7 15 ∧ decode 0x0008 = .cmp ∧
  decode 0x0108 = .illegalAluMode0100 264 ∧ decode 0x3F61 = .mov 6 1 ∧ decode 0x4211 = .jmp 0 .backward 17 ∧
  decode 0x4C05 = .jmp 3 .forward 5 ∧ decode 0x6ABC = .halt ∧ decode 0x8123 = .illegalOp8

/-! ### The step -/

/-- R70: while the core runs and `pc` addresses an instruction, the step is the meaning of the decoded
instruction, in the state whose `ir` holds the fetched word. -/
def Obligations.StepRunsDecodedInstruction : Prop :=
  ∀ (i : Instr) (s : State), s.status = .running → s.pc.toNat < 64 → decode (s.progAt s.pc.toNat) = i →
    step s = exec i { s with ir := s.progAt s.pc.toNat }

/-- R71: the fetch of a running core is `ir <- ProgRead(pc)`, and the rest of the step acts on the word it put
there; at `pc >= 64` it raises `OutOfRange(PROG, pc)`, the step ends and nothing else changes: `ir` keeps its old
value and `pc` the out-of-range one. -/
def Obligations.FetchPhase : Prop :=
  ∀ s : State, s.status = .running →
    (s.pc.toNat < 64 →
      step s = exec (decode (s.progAt s.pc.toNat)) { s with ir := s.progAt s.pc.toNat }) ∧
    (64 ≤ s.pc.toNat →
      step s = .next { s with status := .faulted, fault := some (.outOfRange .prog s.pc.toNat) })

/-- R78: a core that has halted or faulted takes no step and changes no state: however long it is left, the
state is the one it ended in.  That the step function answers the same state there is the model's choice
(log entry 6). -/
def Obligations.StoppedCoreIsHeld : Prop :=
  ∀ s : State, s.status ≠ .running → ∀ n, StepsTo n s s ∧ ∀ t, StepsTo n s t → t = s

/-- R65, R70, R77: from every state the step answers a next state: the model refuses nothing and stops
nowhere (log entry 5). -/
def Obligations.EveryStepAnswersANextState : Prop :=
  ∀ s : State, ∃ t, step s = .next t

/-- R75, R148: a run ends in exactly two ways.  A run that starts RUNNING ends in `t` after `n` steps exactly when
its last step, from a state `u` that still runs, either fetched a word of opcode 6, and `t` is `u` with that word
in `ir` and status HALTED; or raised the fault `f` that the ordered checks of R126 name, and `t` is `u` with the
fetched word in `ir` (the old `ir` when the fetch itself faulted), status FAULTED and the record `f`.  The checks
rest on decisions D1, D3 and D5. -/
def Obligations.ARunEndsByHaltOrFault : Prop :=
  ∀ (s t : State) (n : Nat), s.status = .running →
    (EndsIn n s t ↔ ∃ k u, n = k + 1 ∧ StepsTo k s u ∧ u.status = .running ∧
      ((u.pc.toNat < 64 ∧ (u.progAt u.pc.toNat).toNat / 4096 = 6 ∧
          t = { u with ir := u.progAt u.pc.toNat, status := .halted }) ∨
        ∃ f, (if 64 ≤ u.pc.toNat then some (.outOfRange .prog u.pc.toNat)
            else faultOfWord u.config (u.progAt u.pc.toNat) (u.getReg 2)) = some f ∧
          t = { u with
            ir := if u.pc.toNat < 64 then u.progAt u.pc.toNat else u.ir
            status := .faulted
            fault := some f }))

/-- R112, R75: a step of a running core halts exactly when it fetched a word of opcode 6, and then only `ir`
and `status` change. -/
def Obligations.OnlyHaltHalts : Prop :=
  ∀ s t : State, s.status = .running → step s = .next t →
    (t.status = .halted ↔ s.pc.toNat < 64 ∧ (s.progAt s.pc.toNat).toNat / 4096 = 6) ∧
    (t.status = .halted → t = { s with ir := s.progAt s.pc.toNat, status := .halted })

/-- R74, R15: a step after which the core still runs leaves `pc` at `pc + 1`, unless it fetched a type-0 JUMP
with bit 0 of `x[4]` set, when the increment is applied to the adjusted value; a step that halts or faults
leaves `pc` where it was.  The wrap below 0 is decision D4. -/
def Obligations.ProgramCounterUpdate : Prop :=
  ∀ s t : State, s.status = .running → step s = .next t →
    (t.status ≠ .running → t.pc = s.pc) ∧
    (t.status = .running → (∀ g n, decode t.ir ≠ .jmp 0 g n) → t.pc = s.pc + 1) ∧
    (t.status = .running → (s.getReg 4).getLsbD 0 = false → t.pc = s.pc + 1) ∧
    (∀ n, t.status = .running → decode t.ir = .jmp 0 .forward n → (s.getReg 4).getLsbD 0 = true →
      t.pc.toNat = (s.pc.toNat + n.toNat + 1) % 65536) ∧
    (∀ n, t.status = .running → decode t.ir = .jmp 0 .backward n → (s.getReg 4).getLsbD 0 = true →
      t.pc.toNat = (s.pc.toNat + 65536 - n.toNat + 1) % 65536)

/-- R73, R13: a step writes at most one register slot, the destination of the instruction it executed (`x[3]` for
opcode 0, the destination field of LOAD, LOAD-IMMEDIATE and MOVE), and at most one data cell, the one the STORE it
executed addresses; no instruction has both; and a step that faults writes neither.  The executed instruction is
the one decoded from the word the step left in `ir`. -/
def Obligations.OneWritePerStep : Prop :=
  ∀ s t : State, Memory.wf dataBlank 16 s.dmem = true → step s = .next t →
    (∀ j : Fin 8, destinationOf s.config (decode t.ir) ≠ some j.val → t.getReg j = s.getReg j) ∧
    (∀ a, storedAddress (decode t.ir) ≠ some a → t.dataAt a = s.dataAt a) ∧
    (destinationOf s.config (decode t.ir) = none ∨ storedAddress (decode t.ir) = none) ∧
    (t.status = .faulted → t.regs = s.regs ∧ ∀ a, t.dataAt a = s.dataAt a)

/-- R17: `x[4]` changes only in a LOAD, LOAD-IMMEDIATE or (under `fields`) MOVE that names it as its
destination. -/
def Obligations.FlagsRegisterIsWrittenOnlyByName : Prop :=
  ∀ s t : State, step s = .next t → t.getReg 4 ≠ s.getReg 4 →
    (∃ a, decode t.ir = .ld 4 a) ∨ (∃ v, decode t.ir = .li 4 v) ∨
    (s.config.moveSemantics = .fields ∧ ∃ src, decode t.ir = .mov src 4)

/-- R22, R33: a data cell changes only in a STORE that names it, and then to that instruction's register. -/
def Obligations.OnlyStoreWritesTheDataRam : Prop :=
  ∀ s t : State, Memory.wf dataBlank 16 s.dmem = true → step s = .next t → ∀ a, t.dataAt a ≠ s.dataAt a →
    a < 16 ∧ ∃ (r : BitVec 4) (i : Fin 8), decode t.ir = .st r (BitVec.ofNat 8 a) ∧ r.toNat = i.val ∧
      t.dataAt a = s.getReg i

/-- R45: nothing a run does changes the instruction RAM; every fetch of an address returns the same word for the
whole run, the one the program image put there.  Nor do the parameters change: 30_encoding.md R64 derives that
they are fixed, and their being a field of the state is the model's choice (log entry 2). -/
def Obligations.InstructionRamIsConstant : Prop :=
  ∀ (n : Nat) (s t : State), StepsTo n s t → t.imem = s.imem ∧ t.config = s.config ∧
    (∀ a, t.progAt a = s.progAt a) ∧
    ∀ (u : State) (image : Image), s = u.resetEvent image → ∀ a : Fin 64, t.progAt a.val = image[a]

/-- R19: `ir` is unobservable: two states that differ in `ir` alone step to states that differ in `ir` at
most. -/
def Obligations.InstructionRegisterIsUnobservable : Prop :=
  ∀ (s t : State) (w : Word), step s = .next t →
    ∃ u, step { s with ir := w } = .next u ∧ { u with ir := t.ir } = t

/-- R111 item 6, R75: a taken `JMP 0, -1` is an endless loop: a core that runs at a word `0x4201` with bit 0 of
`x[4]` set never ends. -/
def Obligations.TakenJumpToItselfNeverEnds : Prop :=
  ∀ s : State, s.status = .running → s.pc.toNat < 64 → s.progAt s.pc.toNat = 0x4201 →
    (s.getReg 4).getLsbD 0 = true → ∀ n t, ¬ EndsIn n s t

/-- Log entry 9: a placed table word is what the very next step runs, from any state. -/
def Obligations.PlacedWordIsRunNext : Prop :=
  ∀ (s : State) (w : Nat), Memory.wf progBlank 64 s.imem = true →
    step (s.withFetchWord 16 w) =
      exec (decode (BitVec.ofNat 16 w)) { s.withFetchWord 16 w with ir := BitVec.ofNat 16 w }

/-! ### Faults -/

/-- R124: a step of a running core that faults records the fault and changes nothing else: `ir` holds the
faulting word (or, when the fetch faulted, its old value), and no later step changes anything. -/
def Obligations.FaultIsPreciseAndFinal : Prop :=
  ∀ s t : State, s.status = .running → step s = .next t → t.status = .faulted →
    (∃ f, t = { s with
      ir := if s.pc.toNat < 64 then s.progAt s.pc.toNat else s.ir
      status := .faulted
      fault := some f }) ∧
    ∀ n u, StepsTo n t u → u = t

/-- R121, R122, R123, R126, R129: a running core faults exactly when the spec's checks, made in their order on
`pc` and on the fetched word as a number, name a fault, and it records that one.  The order of the checks of
one instruction is decision D5, opcodes 8 to 11 are decision D1, `UnspecifiedShift` is decision D3. -/
def Obligations.FaultsAreThoseOfTheCheckOrder : Prop :=
  ∀ s t : State, s.Inv → s.status = .running → step s = .next t →
    t.fault = (if 64 ≤ s.pc.toNat then some (.outOfRange .prog s.pc.toNat)
      else faultOfWord s.config (s.progAt s.pc.toNat) (s.getReg 2)) ∧
    (t.status = .faulted ↔ t.fault.isSome = true)

/-- R14: an index of 8 to 15 raises `OutOfRange(REG, i)`; an index of 0 to 7 names its slot. -/
def Obligations.RegisterIndexCheck : Prop :=
  ∀ i : BitVec 4, (8 ≤ i.toNat → regCheck i = .error (.outOfRange .reg i.toNat)) ∧
    (i.toNat < 8 → ∃ j : Fin 8, regCheck i = .ok j ∧ j.val = i.toNat)

/-- R32, R33, R36, R47: every access out of range raises the fault of its space, in range a read answers the
cell, and a write changes that cell and no other, nor anything but the data RAM. -/
def Obligations.MemoryAccessContract : Prop :=
  ∀ (s : State) (a : Nat) (v : Word), Memory.wf dataBlank 16 s.dmem = true →
    (16 ≤ a → memRead s a = .error (.outOfRange .data a) ∧ memWrite s a v = .error (.outOfRange .data a)) ∧
    (64 ≤ a → progRead s a = .error (.outOfRange .prog a)) ∧
    (a < 64 → progRead s a = .ok (s.progAt a)) ∧
    (a < 16 → memRead s a = .ok (s.dataAt a) ∧
      ∃ t, memWrite s a v = .ok t ∧ t = { s with dmem := t.dmem } ∧
        ∀ b, t.dataAt b = if b = a then v else s.dataAt b)

/-! ### Invariants -/

/-- R20 to R24: the reset state meets the invariant. -/
def Obligations.ResetMeetsTheInvariant : Prop := State.reset.Inv

/-- R140, R20 to R23: so does every state the host starts a program of at most 64 words from. -/
def Obligations.HostStartMeetsTheInvariant : Prop :=
  ∀ (s : State) (p : List Word), p.length ≤ 64 → (s.hostStart p).Inv

/-- R20 to R23, R121 to R123, R129: every step keeps the invariant: canonical memories within their bounds, a
fault recorded exactly in the status FAULTED, and only a record that the spec's checks report. -/
def Obligations.EveryStepKeepsTheInvariant : Prop :=
  ∀ s t : State, s.Inv → step s = .next t → t.Inv

/-- R21, R128: the fault record is "written exactly once, by the faulting step, and then never changes until
reset": along a run from a state that meets the invariant, once a record is there it stays. -/
def Obligations.FaultRecordIsWrittenOnce : Prop :=
  ∀ (n : Nat) (s t : State) (f : FaultRecord), s.Inv → StepsTo n s t → s.fault = some f →
    t.fault = some f ∧ t.status = .faulted

/-! ### The ALU instructions -/

/-- R88, R89, R91, R92: ADD, SUB, INC and DEC complete from every state, write the result modulo 65536 to
`x[3]`, advance `pc`, and change nothing else. -/
def Obligations.ArithmeticInstructions : Prop :=
  ∀ s : State,
    exec .add s = .next { s with
      regs := s.regs.set 3 (BitVec.ofNat 16 (((s.getReg 1).toNat + (s.getReg 2).toNat) % 65536))
      pc := s.pc + 1 } ∧
    exec .sub s = .next { s with
      regs := s.regs.set 3 (BitVec.ofInt 16 (((s.getReg 1).toNat - (s.getReg 2).toNat : Int) % 65536))
      pc := s.pc + 1 } ∧
    exec .inc s = .next { s with
      regs := s.regs.set 3 (BitVec.ofNat 16 (((s.getReg 1).toNat + 1) % 65536))
      pc := s.pc + 1 } ∧
    exec .dec s = .next { s with
      regs := s.regs.set 3 (BitVec.ofInt 16 (((s.getReg 1).toNat - 1 : Int) % 65536))
      pc := s.pc + 1 }

/-- R84 to R87: AND, NOT, XOR and OR complete from every state with the bitwise result in `x[3]`. -/
def Obligations.BitwiseInstructions : Prop :=
  ∀ s : State,
    (∃ v : Word, exec .and s = .next { s with regs := s.regs.set 3 v, pc := s.pc + 1 } ∧
      ∀ i < 16, v.getLsbD i = true ↔ (s.getReg 1).getLsbD i = true ∧ (s.getReg 2).getLsbD i = true) ∧
    (∃ v : Word, exec .not s = .next { s with regs := s.regs.set 3 v, pc := s.pc + 1 } ∧
      v.toNat = 65535 - (s.getReg 1).toNat ∧ ∀ i < 16, v.getLsbD i = true ↔ (s.getReg 1).getLsbD i = false) ∧
    (∃ v : Word, exec .xor s = .next { s with regs := s.regs.set 3 v, pc := s.pc + 1 } ∧
      ∀ i < 16, v.getLsbD i = true ↔ (s.getReg 1).getLsbD i ≠ (s.getReg 2).getLsbD i) ∧
    (∃ v : Word, exec .or s = .next { s with regs := s.regs.set 3 v, pc := s.pc + 1 } ∧
      ∀ i < 16, v.getLsbD i = true ↔ (s.getReg 1).getLsbD i = true ∨ (s.getReg 2).getLsbD i = true)

/-- R82, R83 for an amount of 0 to 15: SHL and SHR complete with `(a * 2^b) mod 65536` and `floor(a / 2^b)`. -/
def Obligations.ShiftsBelowTheWidth : Prop :=
  ∀ s : State, (s.getReg 2).toNat ≤ 15 →
    (∃ v : Word, exec .shl s = .next { s with regs := s.regs.set 3 v, pc := s.pc + 1 } ∧
      v.toNat = (s.getReg 1).toNat * 2 ^ (s.getReg 2).toNat % 65536) ∧
    (∃ v : Word, exec .shr s = .next { s with regs := s.regs.set 3 v, pc := s.pc + 1 } ∧
      v.toNat = (s.getReg 1).toNat / 2 ^ (s.getReg 2).toNat)

/-- R82, R83, R129 for an amount of 16 or more, by the parameter `SHIFT_GE16` (decision D3, log entry 4): 0
under `zero`, the amount modulo 16 under `mod16`, the fault `UnspecifiedShift(b)` under `fault`. -/
def Obligations.ShiftsAtOrAboveTheWidth : Prop :=
  ∀ s : State, 16 ≤ (s.getReg 2).toNat →
    (s.config.shiftGe16 = .zero →
      exec .shl s = .next { s with regs := s.regs.set 3 0, pc := s.pc + 1 } ∧
      exec .shr s = .next { s with regs := s.regs.set 3 0, pc := s.pc + 1 }) ∧
    (s.config.shiftGe16 = .mod16 →
      (∃ v : Word, exec .shl s = .next { s with regs := s.regs.set 3 v, pc := s.pc + 1 } ∧
        v.toNat = (s.getReg 1).toNat * 2 ^ ((s.getReg 2).toNat % 16) % 65536) ∧
      (∃ v : Word, exec .shr s = .next { s with regs := s.regs.set 3 v, pc := s.pc + 1 } ∧
        v.toNat = (s.getReg 1).toNat / 2 ^ ((s.getReg 2).toNat % 16))) ∧
    (s.config.shiftGe16 = .fault →
      exec .shl s = .next { s with status := .faulted, fault := some (.unspecifiedShift (s.getReg 2)) } ∧
      exec .shr s = .next { s with status := .faulted, fault := some (.unspecifiedShift (s.getReg 2)) })

/-- R90: CMP completes with the compare nibble in `x[3]`: bit 3 for `a > b`, bit 2 for `a < b`, bit 1 for
`a = b`, bit 0 always, bits 15 to 4 zero; that is 9, 5 or 3, unsigned. -/
def Obligations.CompareInstruction : Prop :=
  ∀ s : State, ∃ v : Word, exec .cmp s = .next { s with regs := s.regs.set 3 v, pc := s.pc + 1 } ∧
    ((s.getReg 2).toNat < (s.getReg 1).toNat → v = 9) ∧ ((s.getReg 1).toNat < (s.getReg 2).toNat → v = 5) ∧
    (s.getReg 1 = s.getReg 2 → v = 3) ∧ v.getLsbD 0 = true ∧ ∀ i, 4 ≤ i → v.getLsbD i = false

/-- R93: every ALU word of mode 11 to 4095, and each of the ten rows of the table these words fall in, raises
`InvalidAluMode(mode)` whatever the operands: the fault is taken and nothing else changes.  The rows are taken at
every mode of 11 or more; that a row holding a mode of another row, an ill-formed term that no word decodes to,
does the same is the model's choice (log entry 24). -/
def Obligations.InvalidAluModesFault : Prop :=
  ∀ s : State,
    exec .illegalAluMode000B s =
      .next { s with status := .faulted, fault := some (.invalidAluMode 11) } ∧
    ∀ mode : BitVec 12, 11 ≤ mode.toNat →
      ∀ i ∈ [decode (0#4 ++ mode), Instr.illegalAluMode000C mode, .illegalAluMode0010 mode,
          .illegalAluMode0020 mode, .illegalAluMode0040 mode, .illegalAluMode0080 mode,
          .illegalAluMode0100 mode, .illegalAluMode0200 mode, .illegalAluMode0400 mode,
          .illegalAluMode0800 mode],
        exec i s = .next { s with status := .faulted, fault := some (.invalidAluMode mode) }

/-- R80, R94 item 5: the ALU function answers a word for exactly the modes 0 to 10, but for an amount of 16 or
more in modes 0 and 1 under `SHIFT_GE16 = fault`; for a mode of 11 or more it raises
`InvalidAluMode(mode)`. -/
def Obligations.AluAnswersExactlyTheElevenModes : Prop :=
  ∀ (c : Config) (mode : BitVec 12) (a b : Word),
    ((∃ v, alu c mode a b = .ok v) ↔
      mode.toNat < 11 ∧ ¬ (mode.toNat < 2 ∧ 16 ≤ b.toNat ∧ c.shiftGe16 = .fault)) ∧
    (11 ≤ mode.toNat → alu c mode a b = .error (.invalidAluMode mode))

/-- R81: every word of opcode 0 applies the ALU at `ir[11:0]` to `x[1]` and `x[2]` and writes `x[3]`, or takes the
fault the ALU raised. -/
def Obligations.OpcodeZeroAppliesTheAlu : Prop :=
  ∀ (mode : BitVec 12) (s : State),
    (∀ v, alu s.config mode (s.getReg 1) (s.getReg 2) = .ok v →
      exec (decode (0#4 ++ mode)) s = .next { s with regs := s.regs.set 3 v, pc := s.pc + 1 }) ∧
    (∀ f, alu s.config mode (s.getReg 1) (s.getReg 2) = .error f →
      exec (decode (0#4 ++ mode)) s = .next { s with status := .faulted, fault := some f })

/-- R95, R13, the FRAME of the ALU rows, the valid and the invalid: no register but `x[3]` changes, `x[4]` in
particular; every address of both memories reads as before; `ir` is unchanged; status and record are
unchanged unless the fault is taken, which changes nothing else. -/
def Obligations.AluInstructionsFrame : Prop :=
  ∀ (mode : BitVec 12) (s t : State),
    ∀ i ∈ [Instr.shl, .shr, .and, .not, .xor, .or, .add, .sub, .cmp, .inc, .dec, .illegalAluMode000B,
        .illegalAluMode000C mode, .illegalAluMode0010 mode, .illegalAluMode0020 mode,
        .illegalAluMode0040 mode, .illegalAluMode0080 mode, .illegalAluMode0100 mode,
        .illegalAluMode0200 mode, .illegalAluMode0400 mode, .illegalAluMode0800 mode],
      exec i s = .next t →
        (∀ j, j ≠ 3 → t.getReg j = s.getReg j) ∧ SameMemory s t ∧ t.ir = s.ir ∧
        ((t.status = s.status ∧ t.fault = s.fault) ∨ FaultTaken s t)

/-! ### Data transfer -/

/-- R100: LOAD moves the whole word `DM[addr]` into `x[reg]`; an address of 16 or more raises
`OutOfRange(DATA, addr)` first (the order is decision D5), then an index of 8 or more raises
`OutOfRange(REG, reg)`. -/
def Obligations.LoadInstruction : Prop :=
  ∀ (s : State) (reg : BitVec 4) (addr : BitVec 8),
    (∀ i : Fin 8, reg.toNat = i.val → addr.toNat < 16 →
      exec (.ld reg addr) s = .next { s with regs := s.regs.set i (s.dataAt addr.toNat), pc := s.pc + 1 }) ∧
    (16 ≤ addr.toNat → exec (.ld reg addr) s =
      .next { s with status := .faulted, fault := some (.outOfRange .data addr.toNat) }) ∧
    (addr.toNat < 16 → 8 ≤ reg.toNat → exec (.ld reg addr) s =
      .next { s with status := .faulted, fault := some (.outOfRange .reg reg.toNat) })

/-- R101: STORE writes the whole word `x[reg]` to `DM[addr]` and to no other cell; an index of 8 or more raises
`OutOfRange(REG, reg)` first (the order is decision D5), then an address of 16 or more raises
`OutOfRange(DATA, addr)`. -/
def Obligations.StoreInstruction : Prop :=
  ∀ (s : State) (reg : BitVec 4) (addr : BitVec 8), Memory.wf dataBlank 16 s.dmem = true →
    (∀ i : Fin 8, reg.toNat = i.val → addr.toNat < 16 →
      ∃ t, exec (.st reg addr) s = .next t ∧ t = { s with dmem := t.dmem, pc := s.pc + 1 } ∧
        ∀ a, t.dataAt a = if a = addr.toNat then s.getReg i else s.dataAt a) ∧
    (8 ≤ reg.toNat → exec (.st reg addr) s =
      .next { s with status := .faulted, fault := some (.outOfRange .reg reg.toNat) }) ∧
    (reg.toNat < 8 → 16 ≤ addr.toNat → exec (.st reg addr) s =
      .next { s with status := .faulted, fault := some (.outOfRange .data addr.toNat) })

/-- R103: MOVE under `MOVE_SEMANTICS = fields` copies `x[src]` to `x[dst]`; a source index of 8 or more raises
`OutOfRange(REG, src)` first (the order is decision D5), then a destination index. -/
def Obligations.MoveUnderFields : Prop :=
  ∀ (s : State) (src dst : BitVec 4), s.config.moveSemantics = .fields →
    (∀ i j : Fin 8, src.toNat = i.val → dst.toNat = j.val →
      exec (.mov src dst) s = .next { s with regs := s.regs.set j (s.getReg i), pc := s.pc + 1 }) ∧
    (8 ≤ src.toNat → exec (.mov src dst) s =
      .next { s with status := .faulted, fault := some (.outOfRange .reg src.toNat) }) ∧
    (src.toNat < 8 → 8 ≤ dst.toNat → exec (.mov src dst) s =
      .next { s with status := .faulted, fault := some (.outOfRange .reg dst.toNat) })

/-- R104: MOVE under `MOVE_SEMANTICS = literal` changes nothing but `pc`, for every word of opcode 3, and never
faults. -/
def Obligations.MoveUnderLiteral : Prop :=
  ∀ (s : State) (low : BitVec 12), s.config.moveSemantics = .literal →
    (∃ src dst, decode (3#4 ++ low) = .mov src dst) ∧
    exec (decode (3#4 ++ low)) s = .next { s with pc := s.pc + 1 }

/-- R105: LOAD-IMMEDIATE writes the zero-extended value to the whole register `x[reg]`; an index of 8 or more
raises `OutOfRange(REG, reg)` and nothing is written. -/
def Obligations.LoadImmediateInstruction : Prop :=
  ∀ (s : State) (reg : BitVec 4) (value : BitVec 8),
    (∀ i : Fin 8, reg.toNat = i.val → exec (.li reg value) s =
      .next { s with regs := s.regs.set i (BitVec.ofNat 16 value.toNat), pc := s.pc + 1 }) ∧
    (8 ≤ reg.toNat → exec (.li reg value) s =
      .next { s with status := .faulted, fault := some (.outOfRange .reg reg.toNat) })

/-- R12: no register is hardwired, slot 0 included: LOAD, LOAD-IMMEDIATE and MOVE (under `fields`) with any of the
eight slots as destination write it, it then reads as what was written, and no other slot changes; `x[0]` is 0 after
reset because reset puts 0 there. -/
def Obligations.RegistersArePlainStorage : Prop :=
  (∀ (s : State) (d : BitVec 4) (j : Fin 8), d.toNat = j.val →
    (∀ addr : BitVec 8, addr.toNat < 16 → ∃ t, exec (.ld d addr) s = .next t ∧
      t.getReg j = s.dataAt addr.toNat ∧ ∀ k, k ≠ j → t.getReg k = s.getReg k) ∧
    (∀ value : BitVec 8, ∃ t, exec (.li d value) s = .next t ∧
      (t.getReg j).toNat = value.toNat ∧ ∀ k, k ≠ j → t.getReg k = s.getReg k) ∧
    (s.config.moveSemantics = .fields → ∀ (src : BitVec 4) (i : Fin 8), src.toNat = i.val →
      ∃ t, exec (.mov src d) s = .next t ∧
        t.getReg j = s.getReg i ∧ ∀ k, k ≠ j → t.getReg k = s.getReg k)) ∧
  ∀ (s : State) (image : Image), (s.resetEvent image).getReg 0 = 0

/-- R34: a STORE to a valid address followed by a LOAD from it returns the stored word: the data-memory round
trip. -/
def Obligations.StoreThenLoadReturnsTheWord : Prop :=
  ∀ (s : State) (r d : BitVec 4) (addr : BitVec 8) (i j : Fin 8), Memory.wf dataBlank 16 s.dmem = true →
    r.toNat = i.val → d.toNat = j.val → addr.toNat < 16 →
    ∃ t u, exec (.st r addr) s = .next t ∧ exec (.ld d addr) t = .next u ∧ u.getReg j = s.getReg i

/-- R13, the FRAME of LOAD, LOAD-IMMEDIATE and MOVE: no register changes but the one the destination field names;
every address of both memories reads as before; `ir` is unchanged; status and record are unchanged unless
the fault is taken, which changes nothing else. -/
def Obligations.RegisterTransfersFrame : Prop :=
  ∀ (s t : State) (dst src : BitVec 4) (low : BitVec 8),
    ∀ i ∈ [Instr.ld dst low, .li dst low, .mov src dst], exec i s = .next t →
      (∀ j : Fin 8, j.val ≠ dst.toNat → t.getReg j = s.getReg j) ∧ SameMemory s t ∧ t.ir = s.ir ∧
      ((t.status = s.status ∧ t.fault = s.fault) ∨ FaultTaken s t)

/-- R13, R33, the FRAME of STORE: no register changes; every data address but the one its `addr` field names, and
every program address, reads as before. -/
def Obligations.StoreFrame : Prop :=
  ∀ (s t : State) (reg : BitVec 4) (addr : BitVec 8), Memory.wf dataBlank 16 s.dmem = true →
    exec (.st reg addr) s = .next t →
      t.regs = s.regs ∧ (∀ a, a ≠ effectiveAddr addr → t.dataAt a = s.dataAt a) ∧
      (∀ a, t.progAt a = s.progAt a) ∧ t.ir = s.ir ∧ t.config = s.config ∧
      ((t.status = s.status ∧ t.fault = s.fault) ∨ FaultTaken s t)

/-! ### Control -/

/-- R110, R111: a JUMP is taken if and only if its type is 0 and bit 0 of `x[4]` is set, and completes for every
word and state: taken, at `pc + jumpSize + 1` or `pc - jumpSize + 1`, not taken at `pc + 1`, modulo 65536 (the
wrap is decision D4).  Nothing but `pc` changes. -/
def Obligations.JumpInstruction : Prop :=
  ∀ (s : State) (jumpType : BitVec 2) (jumpSign : JumpSign) (jumpSize : BitVec 9),
    ∃ t, exec (.jmp jumpType jumpSign jumpSize) s = .next t ∧ t = { s with pc := t.pc } ∧
      (jumpType = 0 → (s.getReg 4).getLsbD 0 = true → jumpSign = .forward →
        t.pc.toNat = (s.pc.toNat + jumpSize.toNat + 1) % 65536) ∧
      (jumpType = 0 → (s.getReg 4).getLsbD 0 = true → jumpSign = .backward →
        t.pc.toNat = (s.pc.toNat + 65536 - jumpSize.toNat + 1) % 65536) ∧
      (¬ (jumpType = 0 ∧ (s.getReg 4).getLsbD 0 = true) → t.pc.toNat = (s.pc.toNat + 1) % 65536)

/-- R112: HALT, for every word of opcode 6, sets `status` to HALTED and changes nothing else, not `pc`; after it no
step changes anything (that the step answers the same state is log entry 6), and the host may read the final
state. -/
def Obligations.HaltInstruction : Prop :=
  ∀ s : State, exec .halt s = .next { s with status := .halted } ∧
    (∀ low : BitVec 12, exec (decode (6#4 ++ low)) s = .next { s with status := .halted }) ∧
    (∀ n t, StepsTo n { s with status := .halted } t → t = { s with status := .halted }) ∧
    (State.hostRead { s with status := .halted }).isSome = true

/-- R59: a word of opcode 7, 12, 13, 14 or 15 raises `InvalidOpcode(opcode)` whatever its low 12 bits are. -/
def Obligations.UnassignedOpcodesFault : Prop :=
  ∀ s : State,
    (∀ (opcode : BitVec 4) (low : BitVec 12), opcode = 7 ∨ 12 ≤ opcode.toNat →
      exec (decode (opcode ++ low)) s =
        .next { s with status := .faulted, fault := some (.invalidOpcode opcode) }) ∧
    exec .illegalOp7 s = .next { s with status := .faulted, fault := some (.invalidOpcode 7) } ∧
    exec .illegalOp12 s = .next { s with status := .faulted, fault := some (.invalidOpcode 12) } ∧
    exec .illegalOp13 s = .next { s with status := .faulted, fault := some (.invalidOpcode 13) } ∧
    exec .illegalOp14 s = .next { s with status := .faulted, fault := some (.invalidOpcode 14) } ∧
    exec .illegalOp15 s = .next { s with status := .faulted, fault := some (.invalidOpcode 15) }

/-- R60, decision D1 (log entry 7): so does a word of opcode 8, 9, 10 or 11, which the source does not name. -/
def Obligations.OpcodesEightToElevenFault : Prop :=
  ∀ s : State,
    (∀ (opcode : BitVec 4) (low : BitVec 12), 8 ≤ opcode.toNat → opcode.toNat ≤ 11 →
      exec (decode (opcode ++ low)) s =
        .next { s with status := .faulted, fault := some (.invalidOpcode opcode) }) ∧
    exec .illegalOp8 s = .next { s with status := .faulted, fault := some (.invalidOpcode 8) } ∧
    exec .illegalOp9 s = .next { s with status := .faulted, fault := some (.invalidOpcode 9) } ∧
    exec .illegalOp10 s = .next { s with status := .faulted, fault := some (.invalidOpcode 10) } ∧
    exec .illegalOp11 s = .next { s with status := .faulted, fault := some (.invalidOpcode 11) }

/-- R13, the FRAME of JUMP, HALT and the illegal opcodes: no register changes and every address of both memories
reads as before. -/
def Obligations.ControlInstructionsFrame : Prop :=
  ∀ (s t : State) (jumpType : BitVec 2) (jumpSign : JumpSign) (jumpSize : BitVec 9),
    ∀ i ∈ [Instr.jmp jumpType jumpSign jumpSize, .halt, .illegalOp7, .illegalOp8, .illegalOp9, .illegalOp10,
        .illegalOp11, .illegalOp12, .illegalOp13, .illegalOp14, .illegalOp15],
      exec i s = .next t → t.regs = s.regs ∧ SameMemory s t ∧ t.ir = s.ir ∧
        ((∃ p, t = { s with pc := p }) ∨ t = { s with status := .halted } ∨ FaultTaken s t)
end

