-- ==== Sys2Proof/Laws/State.lean ====
section
/-! SUPPORT. One lemma per field per update of the state, so that no later proof unfolds a record
update; and the register file read after a write. -/

namespace Sys2Proof.Machine

variable (s : State)

@[simp] theorem State.setReg_regs (i : Fin 8) (v : Word) : (s.setReg i v).regs = s.regs.set i v := rfl
@[simp] theorem State.setReg_pc (i : Fin 8) (v : Word) : (s.setReg i v).pc = s.pc := rfl
@[simp] theorem State.setReg_ir (i : Fin 8) (v : Word) : (s.setReg i v).ir = s.ir := rfl
@[simp] theorem State.setReg_status (i : Fin 8) (v : Word) : (s.setReg i v).status = s.status := rfl
@[simp] theorem State.setReg_fault (i : Fin 8) (v : Word) : (s.setReg i v).fault = s.fault := rfl
@[simp] theorem State.setReg_dmem (i : Fin 8) (v : Word) : (s.setReg i v).dmem = s.dmem := rfl
@[simp] theorem State.setReg_imem (i : Fin 8) (v : Word) : (s.setReg i v).imem = s.imem := rfl
@[simp] theorem State.setReg_config (i : Fin 8) (v : Word) : (s.setReg i v).config = s.config := rfl

@[simp] theorem State.setPc_regs (v : Word) : (s.setPc v).regs = s.regs := rfl
@[simp] theorem State.setPc_pc (v : Word) : (s.setPc v).pc = v := rfl
@[simp] theorem State.setPc_ir (v : Word) : (s.setPc v).ir = s.ir := rfl
@[simp] theorem State.setPc_status (v : Word) : (s.setPc v).status = s.status := rfl
@[simp] theorem State.setPc_fault (v : Word) : (s.setPc v).fault = s.fault := rfl
@[simp] theorem State.setPc_dmem (v : Word) : (s.setPc v).dmem = s.dmem := rfl
@[simp] theorem State.setPc_imem (v : Word) : (s.setPc v).imem = s.imem := rfl
@[simp] theorem State.setPc_config (v : Word) : (s.setPc v).config = s.config := rfl

@[simp] theorem State.setIr_regs (w : Word) : (s.setIr w).regs = s.regs := rfl
@[simp] theorem State.setIr_pc (w : Word) : (s.setIr w).pc = s.pc := rfl
@[simp] theorem State.setIr_ir (w : Word) : (s.setIr w).ir = w := rfl
@[simp] theorem State.setIr_status (w : Word) : (s.setIr w).status = s.status := rfl
@[simp] theorem State.setIr_fault (w : Word) : (s.setIr w).fault = s.fault := rfl
@[simp] theorem State.setIr_dmem (w : Word) : (s.setIr w).dmem = s.dmem := rfl
@[simp] theorem State.setIr_imem (w : Word) : (s.setIr w).imem = s.imem := rfl
@[simp] theorem State.setIr_config (w : Word) : (s.setIr w).config = s.config := rfl

@[simp] theorem State.setData_regs (a : Nat) (v : Word) : (s.setData a v).regs = s.regs := rfl
@[simp] theorem State.setData_pc (a : Nat) (v : Word) : (s.setData a v).pc = s.pc := rfl
@[simp] theorem State.setData_ir (a : Nat) (v : Word) : (s.setData a v).ir = s.ir := rfl
@[simp] theorem State.setData_status (a : Nat) (v : Word) : (s.setData a v).status = s.status := rfl
@[simp] theorem State.setData_fault (a : Nat) (v : Word) : (s.setData a v).fault = s.fault := rfl
@[simp] theorem State.setData_dmem (a : Nat) (v : Word) : (s.setData a v).dmem = Memory.write dataBlank s.dmem a v := rfl
@[simp] theorem State.setData_imem (a : Nat) (v : Word) : (s.setData a v).imem = s.imem := rfl
@[simp] theorem State.setData_config (a : Nat) (v : Word) : (s.setData a v).config = s.config := rfl

@[simp] theorem State.raise_regs (f : FaultRecord) : (s.raise f).regs = s.regs := rfl
@[simp] theorem State.raise_pc (f : FaultRecord) : (s.raise f).pc = s.pc := rfl
@[simp] theorem State.raise_ir (f : FaultRecord) : (s.raise f).ir = s.ir := rfl
@[simp] theorem State.raise_status (f : FaultRecord) : (s.raise f).status = .faulted := rfl
@[simp] theorem State.raise_fault (f : FaultRecord) : (s.raise f).fault = some f := rfl
@[simp] theorem State.raise_dmem (f : FaultRecord) : (s.raise f).dmem = s.dmem := rfl
@[simp] theorem State.raise_imem (f : FaultRecord) : (s.raise f).imem = s.imem := rfl
@[simp] theorem State.raise_config (f : FaultRecord) : (s.raise f).config = s.config := rfl

@[simp] theorem State.halt_regs : (s.halt).regs = s.regs := rfl
@[simp] theorem State.halt_pc : (s.halt).pc = s.pc := rfl
@[simp] theorem State.halt_ir : (s.halt).ir = s.ir := rfl
@[simp] theorem State.halt_status : (s.halt).status = .halted := rfl
@[simp] theorem State.halt_fault : (s.halt).fault = s.fault := rfl
@[simp] theorem State.halt_dmem : (s.halt).dmem = s.dmem := rfl
@[simp] theorem State.halt_imem : (s.halt).imem = s.imem := rfl
@[simp] theorem State.halt_config : (s.halt).config = s.config := rfl

@[simp] theorem State.advance_regs : (s.advance).regs = s.regs := rfl
@[simp] theorem State.advance_pc : (s.advance).pc = s.pc + 1 := rfl
@[simp] theorem State.advance_ir : (s.advance).ir = s.ir := rfl
@[simp] theorem State.advance_status : (s.advance).status = s.status := rfl
@[simp] theorem State.advance_fault : (s.advance).fault = s.fault := rfl
@[simp] theorem State.advance_dmem : (s.advance).dmem = s.dmem := rfl
@[simp] theorem State.advance_imem : (s.advance).imem = s.imem := rfl
@[simp] theorem State.advance_config : (s.advance).config = s.config := rfl

/-- A slot reads back what was written to it (10_state.md R12). -/
@[simp] theorem State.getReg_setReg_self (i : Fin 8) (v : Word) : (s.setReg i v).getReg i = v := by
  simp [State.getReg, State.setReg]

/-- A write leaves every other slot alone. -/
theorem State.getReg_setReg_ne (i j : Fin 8) (v : Word) (h : i ≠ j) :
    (s.setReg i v).getReg j = s.getReg j := by
  have : i.val ≠ j.val := fun e => h (Fin.ext e)
  simp [State.getReg, State.setReg, Vector.getElem_set_ne, this]

/-- Writing a slot's own value changes nothing (42_data_transfer.md R104). -/
@[simp] theorem State.setReg_getReg_self (i : Fin 8) : s.setReg i (s.getReg i) = s := by
  simp [State.getReg, State.setReg]

@[simp] theorem State.getReg_setPc (v : Word) (i : Fin 8) : (s.setPc v).getReg i = s.getReg i := rfl
@[simp] theorem State.getReg_setIr (w : Word) (i : Fin 8) : (s.setIr w).getReg i = s.getReg i := rfl
@[simp] theorem State.getReg_setData (a : Nat) (v : Word) (i : Fin 8) :
    (s.setData a v).getReg i = s.getReg i := rfl
@[simp] theorem State.getReg_raise (f : FaultRecord) (i : Fin 8) : (s.raise f).getReg i = s.getReg i := rfl
@[simp] theorem State.getReg_halt (i : Fin 8) : s.halt.getReg i = s.getReg i := rfl
@[simp] theorem State.getReg_advance (i : Fin 8) : s.advance.getReg i = s.getReg i := rfl

end Sys2Proof.Machine
end

