-- ==== Sys2Proof/Laws/Memory.lean ====
section
/-! SUPPORT. The laws of a memory: read after write, and the canonical form, which every operation keeps
and which makes equal memories equal data. -/

namespace Sys2Proof.Machine

@[simp] theorem Memory.read_nil (blank : Word) (a : Nat) : Memory.read blank [] a = blank := rfl

theorem Memory.read_cons (blank : Word) (b : Nat) (u : Word) (rest : Memory) (a : Nat) :
    Memory.read blank ((b, u) :: rest) a = if b = a then u else Memory.read blank rest a := rfl

/-- Below the first cell's bound every address is unlisted. -/
theorem Memory.read_below {blank : Word} {size lo : Nat} {m : Memory}
    (h : Memory.wfFrom blank size lo m = true) {a : Nat} (ha : a < lo) : Memory.read blank m a = blank := by
  induction m generalizing lo with
  | nil => rfl
  | cons c rest ih =>
    obtain ⟨b, u⟩ := c
    simp only [Memory.wfFrom, Bool.and_eq_true, decide_eq_true_eq] at h
    rw [Memory.read_cons, if_neg (by omega), ih h.2 (by omega)]

/-- At and above `size` every address is unlisted. -/
theorem Memory.read_above {blank : Word} {size lo : Nat} {m : Memory}
    (h : Memory.wfFrom blank size lo m = true) {a : Nat} (ha : size ≤ a) : Memory.read blank m a = blank := by
  induction m generalizing lo with
  | nil => rfl
  | cons c rest ih =>
    obtain ⟨b, u⟩ := c
    simp only [Memory.wfFrom, Bool.and_eq_true, decide_eq_true_eq] at h
    rw [Memory.read_cons, if_neg (by omega), ih h.2]

/-- A lower bound may be lowered. -/
theorem Memory.wfFrom_mono {blank : Word} {size lo lo' : Nat} {m : Memory} (hl : lo' ≤ lo)
    (h : Memory.wfFrom blank size lo m = true) : Memory.wfFrom blank size lo' m = true := by
  cases m with
  | nil => rfl
  | cons c rest =>
    obtain ⟨b, u⟩ := c
    simp only [Memory.wfFrom, Bool.and_eq_true, decide_eq_true_eq] at h ⊢
    exact ⟨⟨⟨by omega, h.1.1.2⟩, h.1.2⟩, h.2⟩

/-- Reading after a write, at every address. -/
theorem Memory.read_write {blank : Word} {size lo : Nat} {m : Memory}
    (h : Memory.wfFrom blank size lo m = true) (a : Nat) (v : Word) (x : Nat) :
    Memory.read blank (Memory.write blank m a v) x = if x = a then v else Memory.read blank m x := by
  induction m generalizing lo with
  | nil =>
    simp only [Memory.write]
    split
    · next hv => simp [hv]
    · simp only [Memory.read_cons, Memory.read_nil, eq_comm (a := x)]
  | cons c rest ih =>
    obtain ⟨b, u⟩ := c
    simp only [Memory.wfFrom, Bool.and_eq_true, decide_eq_true_eq] at h
    rcases Nat.lt_trichotomy b a with hba | rfl | hba
    · simp only [Memory.write, if_pos hba, Memory.read_cons, ih h.2]
      by_cases hx : x = a
      · rw [if_neg (by omega), if_pos hx, if_pos hx]
      · rw [if_neg hx, if_neg hx]
    · have hb : Memory.read blank rest b = blank := Memory.read_below h.2 (by omega)
      simp only [Memory.write, if_neg (Nat.lt_irrefl b), if_true]
      by_cases hx : x = b
      · subst hx
        split
        · next hv => rw [if_pos rfl, hb, hv]
        · simp [Memory.read_cons]
      · split <;> simp [Memory.read_cons, Ne.symm hx]
    · have ha : Memory.read blank rest a = blank := Memory.read_below h.2 (by omega)
      simp only [Memory.write, if_neg (show ¬ b < a by omega), if_neg (show ¬ b = a by omega)]
      by_cases hx : x = a
      · subst hx
        split
        · next hv => rw [Memory.read_cons, if_neg (by omega), if_pos rfl, ha, hv]
        · simp [Memory.read_cons]
      · split <;> simp [Memory.read_cons, Ne.symm hx]

/-- A write inside the bounds keeps the canonical form. -/
theorem Memory.wfFrom_write {blank : Word} {size lo : Nat} {m : Memory}
    (h : Memory.wfFrom blank size lo m = true) {a : Nat} (hl : lo ≤ a) (ha : a < size) (v : Word) :
    Memory.wfFrom blank size lo (Memory.write blank m a v) = true := by
  induction m generalizing lo with
  | nil => by_cases hv : v = blank <;> simp_all [Memory.write, Memory.wfFrom]
  | cons c rest ih =>
    obtain ⟨b, u⟩ := c
    simp only [Memory.wfFrom, Bool.and_eq_true, decide_eq_true_eq] at h
    rcases Nat.lt_trichotomy b a with hba | rfl | hba
    · simp only [Memory.write, if_pos hba, Memory.wfFrom, Bool.and_eq_true, decide_eq_true_eq]
      exact ⟨h.1, ih h.2 (by omega)⟩
    · by_cases hv : v = blank
      · simpa [Memory.write, hv] using Memory.wfFrom_mono (by omega) h.2
      · simpa [Memory.write, hv, Memory.wfFrom, hl, ha] using h.2
    · have h1 : ¬ b < a := by omega
      have h2 : ¬ b = a := by omega
      by_cases hv : v = blank
      · simpa [Memory.write, h1, h2, hv, Memory.wfFrom] using h
      · simp only [Memory.write, if_neg h1, if_neg h2, if_neg hv, Memory.wfFrom, Bool.and_eq_true,
          decide_eq_true_eq]
        exact ⟨⟨⟨hl, ha⟩, hv⟩, ⟨⟨by omega, h.1.1.2⟩, h.1.2⟩, h.2⟩

/-- Two canonical memories that read alike everywhere are the same data. -/
theorem Memory.eq_of_read_eq {blank : Word} {size lo : Nat} {m m' : Memory}
    (h : Memory.wfFrom blank size lo m = true) (h' : Memory.wfFrom blank size lo m' = true)
    (hr : ∀ a, Memory.read blank m a = Memory.read blank m' a) : m = m' := by
  induction m generalizing lo m' with
  | nil =>
    cases m' with
    | nil => rfl
    | cons c rest =>
      obtain ⟨b, u⟩ := c
      simp only [Memory.wfFrom, Bool.and_eq_true, decide_eq_true_eq] at h'
      have := hr b
      simp only [Memory.read_nil, Memory.read_cons, if_true] at this
      exact absurd this.symm h'.1.2
  | cons c rest ih =>
    obtain ⟨b, u⟩ := c
    simp only [Memory.wfFrom, Bool.and_eq_true, decide_eq_true_eq] at h
    cases m' with
    | nil =>
      have := hr b
      simp only [Memory.read_nil, Memory.read_cons, if_true] at this
      exact absurd this h.1.2
    | cons c' rest' =>
      obtain ⟨b', u'⟩ := c'
      simp only [Memory.wfFrom, Bool.and_eq_true, decide_eq_true_eq] at h'
      have hbb : b = b' := by
        by_contra hne
        rcases Nat.lt_or_gt_of_ne hne with hlt | hlt
        · have := hr b
          rw [Memory.read_cons, if_pos rfl, Memory.read_cons, if_neg (by omega),
            Memory.read_below h'.2 (by omega)] at this
          exact h.1.2 this
        · have := hr b'
          rw [Memory.read_cons, if_neg (by omega), Memory.read_cons, if_pos rfl,
            Memory.read_below h.2 (by omega)] at this
          exact h'.1.2 this.symm
      subst hbb
      have hu : u = u' := by simpa [Memory.read_cons] using hr b
      subst hu
      have hrest : rest = rest' := by
        refine ih h.2 h'.2 fun a => ?_
        by_cases ha : a = b
        · subst ha
          rw [Memory.read_below h.2 (by omega), Memory.read_below h'.2 (by omega)]
        · simpa [Memory.read_cons, Ne.symm ha] using hr a
      rw [hrest]

/-- The empty memory is canonical. -/
@[simp] theorem Memory.wf_nil (blank : Word) (size : Nat) : Memory.wf blank size [] = true := rfl

/-- `Memory.read_write` for a canonical memory. -/
theorem Memory.read_write_of_wf {blank : Word} {size : Nat} {m : Memory} (h : Memory.wf blank size m = true)
    (a : Nat) (v : Word) (x : Nat) :
    Memory.read blank (Memory.write blank m a v) x = if x = a then v else Memory.read blank m x :=
  Memory.read_write h a v x

/-- A write inside the bounds keeps `Memory.wf`. -/
theorem Memory.wf_write {blank : Word} {size : Nat} {m : Memory} (h : Memory.wf blank size m = true)
    {a : Nat} (ha : a < size) (v : Word) : Memory.wf blank size (Memory.write blank m a v) = true :=
  Memory.wfFrom_write h (Nat.zero_le a) ha v

end Sys2Proof.Machine
end

