-- ==== Sys2Proof/Laws/Boot.lean ====
section
/-! SUPPORT. What the reset event leaves: the instruction RAM it fills reads as the image, in canonical
form. -/

namespace Sys2Proof.Machine

/-- Consecutive cells read as their words, and as `blank` everywhere else. -/
theorem read_cellsFrom (blank : Word) (k : Nat) (ws : List Word) (a : Nat) :
    Memory.read blank (cellsFrom blank k ws) a = if k ≤ a then ws.getD (a - k) blank else blank := by
  induction ws generalizing k with
  | nil => simp [cellsFrom]
  | cons w ws ih =>
    simp only [cellsFrom]
    split
    · next h =>
      rw [ih]
      rcases Nat.lt_trichotomy k a with h1 | h1 | h1
      · rw [if_pos (by omega), if_pos (by omega), show a - k = (a - (k + 1)) + 1 by omega]; simp
      · subst h1; rw [if_neg (by omega)]; simp [h]
      · rw [if_neg (by omega), if_neg (by omega)]
    · rw [Memory.read_cons, ih]
      rcases Nat.lt_trichotomy k a with h1 | h1 | h1
      · rw [if_neg (by omega), if_pos (by omega), if_pos (by omega),
          show a - k = (a - (k + 1)) + 1 by omega]
        simp
      · subst h1; simp
      · rw [if_neg (by omega), if_neg (by omega), if_neg (by omega)]

/-- Consecutive cells within the bounds are canonical. -/
theorem wfFrom_cellsFrom (blank : Word) (size k : Nat) (ws : List Word) (h : k + ws.length ≤ size) :
    Memory.wfFrom blank size k (cellsFrom blank k ws) = true := by
  induction ws generalizing k with
  | nil => rfl
  | cons w ws ih =>
    simp only [List.length_cons] at h
    have := ih (k + 1) (by omega)
    simp only [cellsFrom]
    split
    · exact Memory.wfFrom_mono (by omega) this
    · next hw => simp [Memory.wfFrom, this, hw]; omega

/-- What the host's start does with a program that fits (70_reset_and_hazards.md R140, R145). -/
theorem hostStart_fits (s : State) {p : List Word} (h : p.length ≤ 64) :
    s.hostStart p =
      { State.reset with imem := cellsFrom progBlank 0 (padWords p), config := s.config } := by
  simp [State.hostStart, hostImage, h, State.resetEvent]

end Sys2Proof.Machine
end

