-- ==== Sys2Proof/Laws/PerInstr.lean ====
section
/-! SUPPORT. The family EncodesIntoRow: the canonical word of every well-formed instruction lies in its
own row of spec/opcode_table.json (30_encoding.md section 5). -/

namespace Sys2Proof.Laws.EncodesIntoRow

def Statement (i : Instr) : Prop := i.wellFormed = true → i.row.takes (encode i) = true

/-- The bits of a number in `[2^k, 2^(k+1))` at and above position `k`: only bit `k` is set. -/
theorem testBit_of_highest {n k : Nat} (hlo : 2 ^ k ≤ n) (hhi : n < 2 ^ (k + 1)) {j : Nat} (hj : k ≤ j) :
    n.testBit j = decide (j = k) := by
  rcases Nat.eq_or_lt_of_le hj with rfl | hlt
  · have : n / 2 ^ k = 1 := by
      rw [Nat.pow_succ] at hhi
      exact Nat.div_eq_of_lt_le (by omega) (by omega)
    simp [Nat.testBit_eq_decide_div_mod_eq, this]
  · have hle : 2 ^ (k + 1) ≤ 2 ^ j := Nat.pow_le_pow_right (by decide) hlt
    rw [Nat.testBit_lt_two_pow (by omega)]
    simp; omega

/-- A mode whose highest set bit is bit `k` lies in the row that fixes bit `k` and every bit above it. -/
theorem takes_highest (mode : BitVec 12) (k : Nat) (hk : k < 12) (hlo : 2 ^ k ≤ mode.toNat)
    (hhi : mode.toNat < 2 ^ (k + 1)) :
    OpcodeRow.takes ⟨1#16 <<< k, BitVec.allOnes 16 <<< k⟩ (encodeA mode) = true := by
  rw [OpcodeRow.takes, beq_iff_eq]
  apply BitVec.eq_of_getLsbD_eq
  intro j hj
  simp only [BitVec.getLsbD_and, BitVec.getLsbD_shiftLeft, BitVec.getLsbD_allOnes, hj, decide_true,
    Bool.true_and, encodeA, BitVec.getLsbD_append]
  rcases Nat.lt_or_ge j k with hjk | hjk
  · simp [hjk]
  · by_cases h12 : j < 12
    · rw [if_pos h12, BitVec.getLsbD, testBit_of_highest hlo hhi hjk]
      by_cases hjk' : j = k
      · subst hjk'; simp
      · simp [hjk']; omega
    · rw [if_neg h12]
      simp; omega

theorem shl : Statement .shl := fun _ => by decide
theorem shr : Statement .shr := fun _ => by decide
theorem and : Statement .and := fun _ => by decide
theorem not : Statement .not := fun _ => by decide
theorem xor : Statement .xor := fun _ => by decide
theorem or : Statement .or := fun _ => by decide
theorem add : Statement .add := fun _ => by decide
theorem sub : Statement .sub := fun _ => by decide
theorem cmp : Statement .cmp := fun _ => by decide
theorem inc : Statement .inc := fun _ => by decide
theorem dec : Statement .dec := fun _ => by decide
theorem illegalAluMode000B : Statement .illegalAluMode000B := fun _ => by decide

/-- The range a well-formed mode lies in. -/
theorem modeIn_bounds {mode : BitVec 12} {lo hi : Nat} (h : modeIn mode lo hi = true) :
    lo ≤ mode.toNat ∧ mode.toNat < hi := by simpa [modeIn] using h

theorem illegalAluMode000C (mode : BitVec 12) : Statement (.illegalAluMode000C mode) := fun h => by
  obtain ⟨h1, h2⟩ := modeIn_bounds h
  have : mode = 12 ∨ mode = 13 ∨ mode = 14 ∨ mode = 15 := by bv_omega
  rcases this with rfl | rfl | rfl | rfl <;> decide

theorem illegalAluMode0010 (mode : BitVec 12) : Statement (.illegalAluMode0010 mode) := fun h =>
  takes_highest mode 4 (by decide) (modeIn_bounds h).1 (modeIn_bounds h).2
theorem illegalAluMode0020 (mode : BitVec 12) : Statement (.illegalAluMode0020 mode) := fun h =>
  takes_highest mode 5 (by decide) (modeIn_bounds h).1 (modeIn_bounds h).2
theorem illegalAluMode0040 (mode : BitVec 12) : Statement (.illegalAluMode0040 mode) := fun h =>
  takes_highest mode 6 (by decide) (modeIn_bounds h).1 (modeIn_bounds h).2
theorem illegalAluMode0080 (mode : BitVec 12) : Statement (.illegalAluMode0080 mode) := fun h =>
  takes_highest mode 7 (by decide) (modeIn_bounds h).1 (modeIn_bounds h).2
theorem illegalAluMode0100 (mode : BitVec 12) : Statement (.illegalAluMode0100 mode) := fun h =>
  takes_highest mode 8 (by decide) (modeIn_bounds h).1 (modeIn_bounds h).2
theorem illegalAluMode0200 (mode : BitVec 12) : Statement (.illegalAluMode0200 mode) := fun h =>
  takes_highest mode 9 (by decide) (modeIn_bounds h).1 (modeIn_bounds h).2
theorem illegalAluMode0400 (mode : BitVec 12) : Statement (.illegalAluMode0400 mode) := fun h =>
  takes_highest mode 10 (by decide) (modeIn_bounds h).1 (modeIn_bounds h).2
theorem illegalAluMode0800 (mode : BitVec 12) : Statement (.illegalAluMode0800 mode) := fun h =>
  takes_highest mode 11 (by decide) (modeIn_bounds h).1 (modeIn_bounds h).2

/-- The row of a word whose opcode alone is fixed: the mask keeps the opcode bits. -/
theorem takes_opcode (opcode : BitVec 4) (low : BitVec 12) :
    OpcodeRow.takes ⟨opcode ++ 0#12, 0xF000⟩ (opcode ++ low) = true := by
  rw [OpcodeRow.takes, beq_iff_eq]
  have hm : (0xF000 : BitVec 16) = 15#4 ++ 0#12 := by decide
  change (opcode ++ low : BitVec 16) &&& 0xF000 = opcode ++ 0#12
  rw [hm, BitVec.and_append]
  have : opcode &&& 15#4 = opcode := BitVec.and_allOnes
  rw [this, BitVec.and_zero]

/-- Three fields in a row are two, the last two taken together. -/
theorem append_assoc_word (a : BitVec 4) (b : BitVec 4) (c : BitVec 8) :
    (a ++ b ++ c : BitVec 16) = (a ++ (b ++ c : BitVec 12) : BitVec 16) := by
  simpa using BitVec.append_assoc (x₁ := a) (x₂ := b) (x₃ := c)

theorem ld (reg : BitVec 4) (addr : BitVec 8) : Statement (.ld reg addr) := fun _ => by
  have := takes_opcode 1 (reg ++ addr)
  rwa [← append_assoc_word] at this
theorem st (reg : BitVec 4) (addr : BitVec 8) : Statement (.st reg addr) := fun _ => by
  have := takes_opcode 2 (reg ++ addr)
  rwa [← append_assoc_word] at this
theorem mov (src dst : BitVec 4) : Statement (.mov src dst) := fun _ => by
  revert src dst; decide
theorem jmp (jumpType : BitVec 2) (jumpSign : JumpSign) (jumpSize : BitVec 9) :
    Statement (.jmp jumpType jumpSign jumpSize) := fun _ => by
  have := takes_opcode 4 (jumpType ++ bitOfSign jumpSign ++ jumpSize)
  have e : encode (.jmp jumpType jumpSign jumpSize) =
      (4#4 ++ (jumpType ++ bitOfSign jumpSign ++ jumpSize : BitVec 12) : BitVec 16) := by
    apply BitVec.eq_of_getLsbD_eq
    intro i _
    simp only [encode, encodeJ, BitVec.getLsbD_append]
    repeat' split
    all_goals first | rfl | omega
  rw [e]
  exact this
theorem li (reg : BitVec 4) (value : BitVec 8) : Statement (.li reg value) := fun _ => by
  have := takes_opcode 5 (reg ++ value)
  rwa [← append_assoc_word] at this
theorem halt : Statement .halt := fun _ => by decide
theorem illegalOp7 : Statement .illegalOp7 := fun _ => by decide
theorem illegalOp8 : Statement .illegalOp8 := fun _ => by decide
theorem illegalOp9 : Statement .illegalOp9 := fun _ => by decide
theorem illegalOp10 : Statement .illegalOp10 := fun _ => by decide
theorem illegalOp11 : Statement .illegalOp11 := fun _ => by decide
theorem illegalOp12 : Statement .illegalOp12 := fun _ => by decide
theorem illegalOp13 : Statement .illegalOp13 := fun _ => by decide
theorem illegalOp14 : Statement .illegalOp14 := fun _ => by decide
theorem illegalOp15 : Statement .illegalOp15 := fun _ => by decide

end Sys2Proof.Laws.EncodesIntoRow
end

