-- ==== Sys2Proof/Laws/Decode.lean ====
section
/-! SUPPORT. Decoding by the opcode of the word, and the fields of the encoded formats read back. -/

namespace Sys2Proof

/-- A word is its opcode and its low twelve bits. -/
theorem word_split (w : Word) : ∃ (o : BitVec 4) (low : BitVec 12), w = (o ++ low : BitVec 16) := by
  refine ⟨w.extractLsb' 12 4, w.extractLsb' 0 12, ?_⟩
  apply BitVec.eq_of_getLsbD_eq
  intro i hi
  simp only [BitVec.getLsbD_append, BitVec.getLsbD_extractLsb']
  by_cases h : i < 12
  · simp [h]
  · simp [h, show i - 12 < 4 by omega, show 12 + (i - 12) = i by omega]

@[simp] theorem opcodeOf_append (o : BitVec 4) (low : BitVec 12) : opcodeOf (o ++ low : BitVec 16) = o := by
  apply BitVec.eq_of_getLsbD_eq
  intro i hi
  simp only [opcodeOf, bits, BitVec.getLsbD_extractLsb', hi, decide_true, Bool.true_and]
  exact (BitVec.getLsbD_append (x := o) (y := low)).trans (by simp)

/-- A field within the low twelve bits is cut from them. -/
theorem bits_append (o : BitVec 4) (low : BitVec 12) (lo len : Nat) (h : lo + len ≤ 12) :
    bits (o ++ low : BitVec 16) lo len = low.extractLsb' lo len := by
  apply BitVec.eq_of_getLsbD_eq
  intro i hi
  simp only [bits, BitVec.getLsbD_extractLsb', hi, BitVec.getLsbD_append, show lo + i < 12 by omega]
  simp

/-- The opcode of a word as a number. -/
theorem opcodeOf_toNat (w : Word) : (opcodeOf w).toNat = w.toNat / 4096 := by
  simp [opcodeOf, bits, Nat.shiftRight_eq_div_pow]
  omega

/-- A field as a number: the usual shift and mask (00_scope.md section 5.1). -/
theorem bits_toNat (w : Word) (lo len : Nat) : (bits w lo len).toNat = w.toNat / 2 ^ lo % 2 ^ len := by
  simp [bits, Nat.shiftRight_eq_div_pow]

/-- Concatenation as a number. -/
theorem append_toNat {n m : Nat} (x : BitVec n) (y : BitVec m) :
    (x ++ y).toNat = x.toNat * 2 ^ m + y.toNat := by
  rw [BitVec.toNat_append, ← Nat.shiftLeft_add_eq_or_of_lt y.isLt, Nat.shiftLeft_eq]

/-- A word whose top nibble is `k` decodes as opcode `k` (30_encoding.md R51): `decodeAs` at a numeral is
that opcode's reading. -/
theorem decode_of_opcode {w : Word} {k : Nat} (h : w.toNat / 4096 = k) : decode w = decodeAs k w := by
  rw [decode, opcodeOf_toNat, h]

end Sys2Proof
end

