-- ==== Sys2Proof/Laws/Ops.lean ====
section
/-! SUPPORT. For each shared operation, everything it can do, said once. -/

namespace Sys2Proof.Machine

/-! Sequencing in `Except FaultRecord`. -/

@[simp] theorem except_ok_bind {α β : Type} (a : α) (f : α → Except FaultRecord β) :
    (Except.ok a >>= f) = f a := rfl

@[simp] theorem except_error_bind {α β : Type} (e : FaultRecord) (f : α → Except FaultRecord β) :
    ((Except.error e : Except FaultRecord α) >>= f) = .error e := rfl

@[simp] theorem except_pure {α : Type} (a : α) : (pure a : Except FaultRecord α) = .ok a := rfl

/-! The checks. -/

theorem regCheck_ok {i : BitVec 4} (h : i.toNat < 8) : regCheck i = .ok ⟨i.toNat, h⟩ := dif_pos h

theorem regCheck_error {i : BitVec 4} (h : 8 ≤ i.toNat) :
    regCheck i = .error (.outOfRange .reg i.toNat) := dif_neg (Nat.not_lt.2 h)

/-- The index check on the number of a slot answers the slot. -/
theorem regCheck_slot {r : BitVec 4} {j : Fin 8} (h : r.toNat = j.val) : regCheck r = .ok j := by
  rw [regCheck_ok (h ▸ j.isLt)]
  exact congrArg _ (Fin.ext h)

theorem memRead_ok (s : State) {a : Nat} (h : a < 16) : memRead s a = .ok (s.dataAt a) := if_pos h

theorem memRead_error (s : State) {a : Nat} (h : 16 ≤ a) : memRead s a = .error (.outOfRange .data a) :=
  if_neg (Nat.not_lt.2 h)

theorem memWrite_ok (s : State) {a : Nat} (h : a < 16) (v : Word) : memWrite s a v = .ok (s.setData a v) :=
  if_pos h

theorem memWrite_error (s : State) {a : Nat} (h : 16 ≤ a) (v : Word) :
    memWrite s a v = .error (.outOfRange .data a) := if_neg (Nat.not_lt.2 h)

theorem progRead_ok (s : State) {a : Nat} (h : a < 64) : progRead s a = .ok (s.progAt a) := if_pos h

theorem progRead_error (s : State) {a : Nat} (h : 64 ≤ a) : progRead s a = .error (.outOfRange .prog a) :=
  if_neg (Nat.not_lt.2 h)

theorem fetch_ok {s : State} (h : s.pc.toNat < 64) : fetch s = .ok (s.setIr (s.progAt s.pc.toNat)) := by
  simp [fetch, progRead_ok s h]

theorem fetch_error {s : State} (h : 64 ≤ s.pc.toNat) :
    fetch s = .error (.outOfRange .prog s.pc.toNat) := by
  simp [fetch, progRead_error s h]

/-! The end of the execute phase. -/

@[simp] theorem finish_ok (s t : State) : finish s (.ok t) = .next t.advance := rfl

@[simp] theorem finish_error (s : State) (f : FaultRecord) : finish s (.error f) = .next (s.raise f) := rfl

/-- An execute phase always answers a next state: the completed one with `pc + 1`, or the fault taken. -/
theorem finish_cases (s : State) (r : Except FaultRecord State) :
    (∃ t, r = .ok t ∧ finish s r = .next t.advance) ∨
      (∃ f, r = .error f ∧ finish s r = .next (s.raise f)) := by
  cases r with
  | ok t => exact .inl ⟨t, rfl, rfl⟩
  | error f => exact .inr ⟨f, rfl, rfl⟩

/-- What an execute phase that answered `t` did. -/
theorem finish_next {s t : State} {r : Except FaultRecord State} (h : finish s r = .next t) :
    (∃ u, r = .ok u ∧ t = u.advance) ∨ (∃ f, r = .error f ∧ t = s.raise f) := by
  cases r with
  | ok u => exact .inl ⟨u, rfl, by simpa using h.symm⟩
  | error f => exact .inr ⟨f, rfl, by simpa using h.symm⟩

/-! Reading memory in an updated state. -/

@[simp] theorem State.dataAt_setReg (s : State) (i : Fin 8) (v : Word) (a : Nat) :
    (s.setReg i v).dataAt a = s.dataAt a := rfl
@[simp] theorem State.dataAt_setPc (s : State) (v : Word) (a : Nat) : (s.setPc v).dataAt a = s.dataAt a := rfl
@[simp] theorem State.dataAt_setIr (s : State) (w : Word) (a : Nat) : (s.setIr w).dataAt a = s.dataAt a := rfl
@[simp] theorem State.dataAt_raise (s : State) (f : FaultRecord) (a : Nat) :
    (s.raise f).dataAt a = s.dataAt a := rfl
@[simp] theorem State.dataAt_halt (s : State) (a : Nat) : s.halt.dataAt a = s.dataAt a := rfl
@[simp] theorem State.dataAt_advance (s : State) (a : Nat) : s.advance.dataAt a = s.dataAt a := rfl

/-- A data cell after a store, in a state whose data RAM is canonical (20_memory.md R33). -/
theorem State.dataAt_setData {s : State} (h : Memory.wf dataBlank 16 s.dmem = true) (a : Nat) (v : Word)
    (x : Nat) : (s.setData a v).dataAt x = if x = a then v else s.dataAt x :=
  Memory.read_write_of_wf h a v x

/-! The jump. -/

/-- A JUMP is taken if and only if its type is 0 and bit 0 of the flags is set (43_control.md R111
item 1). -/
theorem jumpTaken_iff (flags : Word) (t : BitVec 2) :
    jumpTaken flags t = true ↔ t = 0 ∧ flags.getLsbD 0 = true := by
  have : t = 0 ∨ t = 1 ∨ t = 2 ∨ t = 3 := by bv_omega
  rcases this with rfl | rfl | rfl | rfl <;> simp only [jumpTaken, flagBit, beq_iff_eq]
  · constructor
    · intro h
      have := congrArg (BitVec.getLsbD · 0) h
      exact ⟨trivial, by simpa using this⟩
    · rintro ⟨-, h⟩
      apply BitVec.eq_of_getLsbD_eq
      intro i hi
      rcases i with _ | i
      · simpa using h
      · simp [BitVec.getLsbD_one]
  all_goals
    constructor
    · intro h
      have := congrArg (BitVec.getLsbD · 0) h
      simp at this
    · rintro ⟨h, -⟩
      exact absurd h (by decide)

theorem jumpBase_taken {flags : Word} {t : BitVec 2} (h : t = 0 ∧ flags.getLsbD 0 = true) (pc : Word)
    (g : JumpSign) (n : BitVec 9) : jumpBase flags pc t g n = jumpAdjust pc g n :=
  if_pos ((jumpTaken_iff flags t).2 h)

theorem jumpBase_not_taken {flags : Word} {t : BitVec 2} (h : ¬ (t = 0 ∧ flags.getLsbD 0 = true)) (pc : Word)
    (g : JumpSign) (n : BitVec 9) : jumpBase flags pc t g n = pc :=
  if_neg fun h' => h ((jumpTaken_iff flags t).1 h')

/-- The address a taken forward jump continues at (R111 item 3). -/
theorem jumpAdjust_forward_succ (pc : Word) (n : BitVec 9) :
    (jumpAdjust pc .forward n + 1).toNat = (pc.toNat + n.toNat + 1) % 65536 := by
  simp [jumpAdjust, BitVec.toNat_add, Nat.mod_eq_of_lt (show n.toNat < 65536 by omega)]

/-- The address a taken backward jump continues at (R111 item 3). -/
theorem jumpAdjust_backward_succ (pc : Word) (n : BitVec 9) :
    (jumpAdjust pc .backward n + 1).toNat = (pc.toNat + 65536 - n.toNat + 1) % 65536 := by
  simp [jumpAdjust, BitVec.toNat_add, BitVec.toNat_sub, Nat.mod_eq_of_lt (show n.toNat < 65536 by omega)]
  omega

/-! The ALU by mode. -/

theorem aluShl_below {c : Config} {a b : Word} (h : b.toNat < 16) : aluShl c a b = .ok (a <<< b.toNat) :=
  if_pos h

theorem aluShl_wide {c : Config} {a b : Word} (h : 16 ≤ b.toNat) :
    aluShl c a b = wideShift c (fun n => a <<< n) b := if_neg (Nat.not_lt.2 h)

theorem aluShr_below {c : Config} {a b : Word} (h : b.toNat < 16) : aluShr c a b = .ok (a >>> b.toNat) :=
  if_pos h

theorem aluShr_wide {c : Config} {a b : Word} (h : 16 ≤ b.toNat) :
    aluShr c a b = wideShift c (fun n => a >>> n) b := if_neg (Nat.not_lt.2 h)

/-- Every mode of 11 or more raises (41_alu.md R93). -/
theorem alu_invalid (c : Config) {mode : BitVec 12} (h : 11 ≤ mode.toNat) (a b : Word) :
    alu c mode a b = .error (.invalidAluMode mode) := by
  unfold alu
  split <;> first | rfl | omega

/-- What an ALU instruction does, by what its ALU answers (41_alu.md R81). -/
theorem aluInstr_of_ok {mode : BitVec 12} {s : State} {v : Word}
    (h : alu s.config mode (s.getReg 1) (s.getReg 2) = .ok v) :
    aluInstr mode s = .next (s.setReg 3 v).advance := by
  simp [aluInstr, h]

theorem aluInstr_of_error {mode : BitVec 12} {s : State} {f : FaultRecord}
    (h : alu s.config mode (s.getReg 1) (s.getReg 2) = .error f) : aluInstr mode s = .next (s.raise f) := by
  simp [aluInstr, h]

/-- An ALU instruction writes `x[3]` and `pc`, or takes a fault. -/
theorem aluInstr_next {mode : BitVec 12} {s t : State} (h : aluInstr mode s = .next t) :
    (∃ v, alu s.config mode (s.getReg 1) (s.getReg 2) = .ok v ∧ t = (s.setReg 3 v).advance) ∨
      (∃ f, alu s.config mode (s.getReg 1) (s.getReg 2) = .error f ∧ t = s.raise f) := by
  cases ha : alu s.config mode (s.getReg 1) (s.getReg 2) with
  | ok v => rw [aluInstr_of_ok ha] at h; exact .inl ⟨v, rfl, by simpa using h.symm⟩
  | error f => rw [aluInstr_of_error ha] at h; exact .inr ⟨f, rfl, by simpa using h.symm⟩

end Sys2Proof.Machine
end

