-- ==== Sys2Proof/Laws/Exec.lean ====
section
/-! SUPPORT. Everything a step can do, said once: the effects of an instruction (`Effect`, with
`exec_effect`) and the cases of a step (`step_running`, `step_fetch_fault`, `step_stopped`). -/

namespace Sys2Proof.Machine

/-- The instruction is a row of opcode 0, valid or not. -/
def IsAluRow : Instr → Bool
  | .shl | .shr | .and | .not | .xor | .or | .add | .sub | .cmp | .inc | .dec => true
  | .illegalAluMode000B | .illegalAluMode000C _ | .illegalAluMode0010 _ | .illegalAluMode0020 _ => true
  | .illegalAluMode0040 _ | .illegalAluMode0080 _ | .illegalAluMode0100 _ | .illegalAluMode0200 _ => true
  | .illegalAluMode0400 _ | .illegalAluMode0800 _ => true
  | _ => false

/-- The 12-bit mode an opcode-0 row spells. -/
def aluModeOf : Instr → BitVec 12
  | .shl => 0
  | .shr => 1
  | .and => 2
  | .not => 3
  | .xor => 4
  | .or => 5
  | .add => 6
  | .sub => 7
  | .cmp => 8
  | .inc => 9
  | .dec => 10
  | .illegalAluMode000B => 11
  | .illegalAluMode000C m | .illegalAluMode0010 m | .illegalAluMode0020 m | .illegalAluMode0040 m => m
  | .illegalAluMode0080 m | .illegalAluMode0100 m | .illegalAluMode0200 m | .illegalAluMode0400 m => m
  | .illegalAluMode0800 m => m
  | _ => 0

/-- A row of opcode 0 is the ALU instruction at its mode (41_alu.md R81). -/
theorem exec_aluRow {i : Instr} (hi : IsAluRow i = true) (s : State) :
    exec i s = aluInstr (aluModeOf i) s := by
  cases i <;> first | rfl | cases hi

/-- What executing an instruction in `s` can lead to: at most one write of a register, of a data cell, of
`pc` or of `status` (40_execution_cycle.md R73), or a fault taken, with a record that one of the spec's checks
reports. -/
inductive Effect (s : State) : Instr → State → Prop where
  | fault (i : Instr) (f : FaultRecord) (hf : f.legal s.config = true) : Effect s i (s.raise f)
  | alu (i : Instr) (v : Word) (hi : IsAluRow i = true) : Effect s i (s.setReg 3 v).advance
  | ld (r : BitVec 4) (a : BitVec 8) (j : Fin 8) (hr : r.toNat = j.val) (ha : a.toNat < 16) :
      Effect s (.ld r a) (s.setReg j (s.dataAt a.toNat)).advance
  | li (r : BitVec 4) (v : BitVec 8) (j : Fin 8) (hr : r.toNat = j.val) :
      Effect s (.li r v) (s.setReg j (zext8 v)).advance
  | movFields (src dst : BitVec 4) (i j : Fin 8) (hm : s.config.moveSemantics = .fields)
      (hs : src.toNat = i.val) (hd : dst.toNat = j.val) :
      Effect s (.mov src dst) (s.setReg j (s.getReg i)).advance
  | movLiteral (src dst : BitVec 4) (hm : s.config.moveSemantics = .literal) :
      Effect s (.mov src dst) s.advance
  | st (r : BitVec 4) (a : BitVec 8) (j : Fin 8) (hr : r.toNat = j.val) (ha : a.toNat < 16) :
      Effect s (.st r a) (s.setData a.toNat (s.getReg j)).advance
  | jmp (t : BitVec 2) (g : JumpSign) (n : BitVec 9) :
      Effect s (.jmp t g n) (s.setPc (jumpBase (s.getReg 4) s.pc t g n)).advance
  | halt : Effect s .halt s.halt

/-- An index check answers the slot of the index or raises. -/
theorem regCheck_cases (r : BitVec 4) :
    (∃ j : Fin 8, regCheck r = .ok j ∧ r.toNat = j.val) ∨
      (8 ≤ r.toNat ∧ regCheck r = .error (.outOfRange .reg r.toNat)) := by
  by_cases h : r.toNat < 8
  · exact .inl ⟨_, regCheck_ok h, rfl⟩
  · exact .inr ⟨by omega, regCheck_error (by omega)⟩

/-- A reported register index is one the check reports. -/
theorem legal_reg {r : BitVec 4} (h : 8 ≤ r.toNat) (c : Config) :
    (FaultRecord.outOfRange .reg r.toNat).legal c = true := by
  have := r.isLt
  simp only [FaultRecord.legal, decide_eq_true_eq]
  omega

/-- A reported data address is one the check reports. -/
theorem legal_data {a : BitVec 8} (h : 16 ≤ a.toNat) (c : Config) :
    (FaultRecord.outOfRange .data a.toNat).legal c = true := by
  have := a.isLt
  simp only [FaultRecord.legal, decide_eq_true_eq]
  omega

/-- What the ALU raises is a record the spec's checks report (41_alu.md R82, R83, R93). -/
theorem alu_error_legal {c : Config} {mode : BitVec 12} {a b : Word} {f : FaultRecord}
    (h : alu c mode a b = .error f) : f.legal c = true := by
  have wide : ∀ g, wideShift c g b = .error f → 16 ≤ b.toNat → f.legal c = true := by
    intro g hg hb
    cases hc : c.shiftGe16 <;> simp only [wideShift, hc, reduceCtorEq, Except.error.injEq] at hg
    subst hg
    simp [FaultRecord.legal, hc, hb]
  by_cases hm : 11 ≤ mode.toNat
  · rw [alu_invalid c hm, Except.error.injEq] at h
    subst h
    simpa [FaultRecord.legal] using hm
  · have hmode : mode = 0 ∨ mode = 1 ∨ mode = 2 ∨ mode = 3 ∨ mode = 4 ∨ mode = 5 ∨ mode = 6 ∨ mode = 7 ∨
        mode = 8 ∨ mode = 9 ∨ mode = 10 := by bv_omega
    rcases Nat.lt_or_ge b.toNat 16 with hb | hb
    · rcases hmode with rfl | rfl | rfl | rfl | rfl | rfl | rfl | rfl | rfl | rfl | rfl <;>
        simp [alu, aluShl_below hb, aluShr_below hb] at h
    · rcases hmode with rfl | rfl | rfl | rfl | rfl | rfl | rfl | rfl | rfl | rfl | rfl
      · exact wide _ ((aluShl_wide hb).symm.trans h) hb
      · exact wide _ ((aluShr_wide hb).symm.trans h) hb
      all_goals simp [alu] at h

theorem aluInstr_effect {mode : BitVec 12} {s t : State} {i : Instr} (hi : IsAluRow i = true)
    (h : aluInstr mode s = .next t) : Effect s i t := by
  rcases aluInstr_next h with ⟨v, -, rfl⟩ | ⟨f, hf, rfl⟩
  · exact .alu i v hi
  · exact .fault i f (alu_error_legal hf)

theorem execLd_effect {r : BitVec 4} {a : BitVec 8} {s t : State} (h : execLd r a s = .next t) :
    Effect s (.ld r a) t := by
  by_cases ha : a.toNat < 16
  · rcases regCheck_cases r with ⟨j, hj, hr⟩ | ⟨hr, hj⟩ <;>
      simp only [execLd, effectiveAddr, memRead_ok s ha, hj, except_ok_bind, except_error_bind, except_pure,
        finish_ok, finish_error, Host.Outcome.next.injEq] at h <;> subst h
    · exact .ld r a j hr ha
    · exact .fault _ _ (legal_reg hr _)
  · simp only [execLd, effectiveAddr, memRead_error s (Nat.not_lt.1 ha), except_error_bind, finish_error,
      Host.Outcome.next.injEq] at h
    subst h
    exact .fault _ _ (legal_data (Nat.not_lt.1 ha) _)

theorem execSt_effect {r : BitVec 4} {a : BitVec 8} {s t : State} (h : execSt r a s = .next t) :
    Effect s (.st r a) t := by
  rcases regCheck_cases r with ⟨j, hj, hr⟩ | ⟨hr, hj⟩
  · by_cases ha : a.toNat < 16
    · simp only [execSt, effectiveAddr, memWrite_ok s ha, hj, except_ok_bind, finish_ok,
        Host.Outcome.next.injEq] at h
      subst h
      exact .st r a j hr ha
    · simp only [execSt, effectiveAddr, memWrite_error s (Nat.not_lt.1 ha), hj, except_ok_bind,
        finish_error, Host.Outcome.next.injEq] at h
      subst h
      exact .fault _ _ (legal_data (Nat.not_lt.1 ha) _)
  · simp only [execSt, hj, except_error_bind, finish_error, Host.Outcome.next.injEq] at h
    subst h
    exact .fault _ _ (legal_reg hr _)

theorem execMov_effect {src dst : BitVec 4} {s t : State} (h : execMov src dst s = .next t) :
    Effect s (.mov src dst) t := by
  unfold execMov at h
  cases hm : s.config.moveSemantics with
  | literal =>
    simp only [hm, moveLiteral, State.setReg_getReg_self, finish_ok, Host.Outcome.next.injEq] at h
    subst h
    exact .movLiteral src dst hm
  | fields =>
    simp only [hm, moveFields] at h
    rcases regCheck_cases src with ⟨i, hi, hs⟩ | ⟨hs, hi⟩
    · rcases regCheck_cases dst with ⟨j, hj, hd⟩ | ⟨hd, hj⟩ <;>
        simp only [hi, hj, except_ok_bind, except_error_bind, except_pure, finish_ok, finish_error,
          Host.Outcome.next.injEq] at h <;> subst h
      · exact .movFields src dst i j hm hs hd
      · exact .fault _ _ (legal_reg hd _)
    · simp only [hi, except_error_bind, finish_error, Host.Outcome.next.injEq] at h
      subst h
      exact .fault _ _ (legal_reg hs _)

theorem execLi_effect {r : BitVec 4} {v : BitVec 8} {s t : State} (h : execLi r v s = .next t) :
    Effect s (.li r v) t := by
  rcases regCheck_cases r with ⟨j, hj, hr⟩ | ⟨hr, hj⟩ <;>
    simp only [execLi, hj, except_ok_bind, except_error_bind, except_pure, finish_ok, finish_error,
      Host.Outcome.next.injEq] at h <;> subst h
  · exact .li r v j hr
  · exact .fault _ _ (legal_reg hr _)

theorem execJmp_effect {ty : BitVec 2} {g : JumpSign} {n : BitVec 9} {s t : State}
    (h : execJmp ty g n s = .next t) : Effect s (.jmp ty g n) t := by
  have h' := Host.Outcome.next.inj h
  subst h'
  exact .jmp ty g n

/-- Everything an instruction can do. -/
theorem exec_effect {i : Instr} {s t : State} (h : exec i s = .next t) : Effect s i t := by
  cases i with
  | ld r a => exact execLd_effect h
  | st r a => exact execSt_effect h
  | mov src dst => exact execMov_effect h
  | jmp ty g n => exact execJmp_effect h
  | li r v => exact execLi_effect h
  | halt => have h' := Host.Outcome.next.inj h; subst h'; exact .halt
  | illegalOp7 | illegalOp8 | illegalOp9 | illegalOp10 | illegalOp11 | illegalOp12 | illegalOp13
  | illegalOp14 | illegalOp15 =>
    have h' := Host.Outcome.next.inj h; subst h'; exact .fault _ _ rfl
  | _ => exact aluInstr_effect rfl ((exec_aluRow rfl s).symm.trans h)

/-- Executing an instruction always answers a next state. -/
theorem exec_answers (i : Instr) (s : State) : ∃ t, exec i s = .next t := by
  have answers : ∀ r, ∃ t, finish s r = .next t := fun r => by cases r <;> exact ⟨_, rfl⟩
  cases i
  case ld => exact answers _
  case st => exact answers _
  case li => exact answers _
  case mov => simp only [exec, execMov]; split <;> exact answers _
  all_goals first
    | exact ⟨_, rfl⟩
    | (rw [exec_aluRow rfl]; exact answers _)

/-- No effect touches the instruction register, the instruction RAM or the parameters. -/
theorem Effect.keeps {s t : State} {i : Instr} (e : Effect s i t) :
    t.ir = s.ir ∧ t.imem = s.imem ∧ t.config = s.config := by
  cases e <;> simp

/-- A step of a running core whose `pc` addresses an instruction (40_execution_cycle.md R70). -/
theorem step_running {s : State} (h : s.status = .running) (hp : s.pc.toNat < 64) :
    step s = exec (decode (s.progAt s.pc.toNat)) (s.setIr (s.progAt s.pc.toNat)) := by
  simp [step, h, fetch_ok hp]

/-- A step of a running core whose `pc` addresses none (R71). -/
theorem step_fetch_fault {s : State} (h : s.status = .running) (hp : 64 ≤ s.pc.toNat) :
    step s = .next (s.raise (.outOfRange .prog s.pc.toNat)) := by
  simp [step, h, fetch_error hp]

/-- A core that does not run is held (R78). -/
theorem step_stopped {s : State} (h : s.status ≠ .running) : step s = .next s := by
  cases hs : s.status <;> simp_all [step, hold]

/-- Everything a step can do.  The step of a running core acts on the state whose `ir` holds the fetched
word. -/
theorem step_cases {s t : State} (h : step s = .next t) :
    (s.status ≠ .running ∧ t = s) ∨
      (s.status = .running ∧ 64 ≤ s.pc.toNat ∧ t = s.raise (.outOfRange .prog s.pc.toNat)) ∨
      (s.status = .running ∧ s.pc.toNat < 64 ∧
        exec (decode (s.progAt s.pc.toNat)) (s.setIr (s.progAt s.pc.toNat)) = .next t ∧
        Effect (s.setIr (s.progAt s.pc.toNat)) (decode (s.progAt s.pc.toNat)) t) := by
  by_cases hr : s.status = .running
  · by_cases hp : s.pc.toNat < 64
    · rw [step_running hr hp] at h
      exact .inr (.inr ⟨hr, hp, h, exec_effect h⟩)
    · rw [step_fetch_fault hr (by omega), Host.Outcome.next.injEq] at h
      exact .inr (.inl ⟨hr, by omega, h.symm⟩)
  · rw [step_stopped hr, Host.Outcome.next.injEq] at h
    exact .inl ⟨hr, h.symm⟩

end Sys2Proof.Machine
end

