-- ==== Sys2Proof/Laws/Runs.lean ====
section
/-! SUPPORT. Runs: a step added at the end or taken from it, determinism, and the status along a run; each
induction over `StepsTo` made once. -/

namespace Sys2Proof.Machine

/-- A run extended by one step at its end. -/
theorem StepsTo.snoc {n : Nat} {s t u : State} (r : StepsTo n s t) (h : step t = .next u) :
    StepsTo (n + 1) s u := by
  induction r with
  | refl s => exact .cons h (.refl u)
  | cons h' _ ih => exact .cons h' (ih h)

/-- The last step of a run that has one. -/
theorem StepsTo.last {n : Nat} {s u : State} (r : StepsTo (n + 1) s u) :
    ∃ t, StepsTo n s t ∧ step t = .next u := by
  induction n generalizing s with
  | zero => cases r with | cons h r => cases r; exact ⟨_, .refl _, h⟩
  | succ n ih =>
    cases r with
    | cons h r =>
      obtain ⟨t, r', h'⟩ := ih r
      exact ⟨t, .cons h r', h'⟩

/-- A run of a given number of steps has one end (40_execution_cycle.md R77). -/
theorem StepsTo.unique {n : Nat} {s t u : State} (r : StepsTo n s t) (r' : StepsTo n s u) : t = u := by
  induction r with
  | refl s => cases r'; rfl
  | cons h _ ih =>
    cases r' with
    | cons h' r' =>
      rw [h, Host.Outcome.next.injEq] at h'
      subst h'
      exact ih r'

/-- A core that does not run is where it was after any number of steps (40_execution_cycle.md R78). -/
theorem StepsTo.eq_of_stopped {n : Nat} {s t : State} (r : StepsTo n s t) (hs : s.status ≠ .running) :
    t = s := by
  induction r with
  | refl s => rfl
  | cons h _ ih =>
    rw [step_stopped hs, Host.Outcome.next.injEq] at h
    subst h
    exact ih hs

/-- Where a run still runs, it ran at every earlier step. -/
theorem StepsTo.running_before {n : Nat} {s t : State} (r : StepsTo n s t) (ht : t.status = .running) :
    ∀ {k u}, k ≤ n → StepsTo k s u → u.status = .running := by
  induction r with
  | refl s =>
    intro k u hk r'
    obtain rfl : k = 0 := by omega
    cases r'
    exact ht
  | cons h r ih =>
    intro k u hk r'
    cases r' with
    | refl =>
      by_contra hs
      exact hs ((StepsTo.cons h r).eq_of_stopped hs ▸ ht)
    | cons h' r' =>
      rw [h, Host.Outcome.next.injEq] at h'
      subst h'
      exact ih ht (by omega) r'

end Sys2Proof.Machine
end

