-- ==== Sys2Proof/Tests/Slice0.lean ====
section
/-! SUPPORT. Small tests.  Expected values are transcribed from 95_test_vectors.md (the vector's id is named),
from the tables of 30_encoding.md and from spec/opcode_table.json; the witnesses at the end show, for every
statement of Certificates/Slice0/Obligations.lean with hypotheses, a concrete case that meets them. -/

namespace Sys2Proof.Tests

open Sys2Proof Sys2Proof.Machine

/-! ### Well-formedness: one ill-formed term for each check, and the bounds it accepts -/

theorem test_illformed_000C : (Instr.illegalAluMode000C 11).wellFormed = false ∧
    (Instr.illegalAluMode000C 16).wellFormed = false := by decide
theorem test_illformed_0010 : (Instr.illegalAluMode0010 32).wellFormed = false := by decide
theorem test_illformed_0020 : (Instr.illegalAluMode0020 31).wellFormed = false := by decide
theorem test_illformed_0040 : (Instr.illegalAluMode0040 128).wellFormed = false := by decide
theorem test_illformed_0080 : (Instr.illegalAluMode0080 127).wellFormed = false := by decide
theorem test_illformed_0100 : (Instr.illegalAluMode0100 512).wellFormed = false := by decide
theorem test_illformed_0200 : (Instr.illegalAluMode0200 511).wellFormed = false := by decide
theorem test_illformed_0400 : (Instr.illegalAluMode0400 2048).wellFormed = false := by decide
theorem test_illformed_0800 : (Instr.illegalAluMode0800 2047).wellFormed = false := by decide

/-- A bad register index or data address is well formed (30_encoding.md R62). -/
theorem test_wellformed_bad_operands : (Instr.ld 9 20).wellFormed = true ∧
    (Instr.mov 15 15).wellFormed = true := by decide

/-! ### Decoding -/

/-- 30_encoding.md section 5, the ALU rows. -/
theorem test_decode_alu :
    [0b0000000000000000, 0b0000000000000001, 0b0000000000000010, 0b0000000000000011, 0b0000000000000100,
      0b0000000000000101, 0b0000000000000110, 0b0000000000000111, 0b0000000000001000, 0b0000000000001001,
      0b0000000000001010].map decode =
    [.shl, .shr, .and, .not, .xor, .or, .add, .sub, .cmp, .inc, .dec] := by decide

/-- 30_encoding.md R61 and the illegal rows of the opcode table: the first and last mode of each. -/
theorem test_decode_illegal_modes :
    [0x000B, 0x000C, 0x000F, 0x0010, 0x001F, 0x0020, 0x003F, 0x0040, 0x007F, 0x0080, 0x00FF].map decode =
    [.illegalAluMode000B, .illegalAluMode000C 12, .illegalAluMode000C 15, .illegalAluMode0010 16,
      .illegalAluMode0010 31, .illegalAluMode0020 32, .illegalAluMode0020 63, .illegalAluMode0040 64,
      .illegalAluMode0040 127, .illegalAluMode0080 128, .illegalAluMode0080 255] ∧
    [0x0100, 0x01FF, 0x0200, 0x03FF, 0x0400, 0x07FF, 0x0800, 0x0FFF].map decode =
    [.illegalAluMode0100 256, .illegalAluMode0100 511, .illegalAluMode0200 512, .illegalAluMode0200 1023,
      .illegalAluMode0400 1024, .illegalAluMode0400 2047, .illegalAluMode0800 2048,
      .illegalAluMode0800 4095] := by decide

/-- 95_test_vectors.md E1 to E4, E6 to E8, E20. -/
theorem test_decode_transfer :
    [0x5107, 0x2100, 0x170F, 0x1914, 0x0108, 0x3061, 0x3F61, 0x50FF].map decode =
    [.li 1 7, .st 1 0, .ld 7 15, .ld 9 20, .illegalAluMode0100 264, .mov 6 1, .mov 6 1, .li 0 255] := by decide

/-- 95_test_vectors.md E9 to E16. -/
theorem test_decode_control :
    [0x4211, 0x4002, 0x4C05, 0x43FF, 0x4600, 0x4400, 0x6000, 0x6ABC].map decode =
    [.jmp 0 .backward 17, .jmp 0 .forward 2, .jmp 3 .forward 5, .jmp 0 .backward 511, .jmp 1 .backward 0,
      .jmp 1 .forward 0, .halt, .halt] := by decide

/-- 95_test_vectors.md E17 to E19 and the illegal opcodes of 30_encoding.md R51. -/
theorem test_decode_illegal_opcodes :
    [0x7000, 0x8123, 0x9000, 0xA000, 0xB000, 0xC000, 0xD000, 0xE000, 0xFFFF].map decode =
    [.illegalOp7, .illegalOp8, .illegalOp9, .illegalOp10, .illegalOp11, .illegalOp12, .illegalOp13,
      .illegalOp14, .illegalOp15] := by decide

/-- One word per format, assembled from the fields of 30_encoding.md R52 to R57. -/
theorem test_decode_fields :
    decode 0b0001_0101_10010110 = .ld 0b0101 0b10010110 ∧
    decode 0b0010_1010_01101001 = .st 0b1010 0b01101001 ∧
    decode 0b0011_1111_0110_1001 = .mov 0b0110 0b1001 ∧
    decode 0b0100_10_1_101100110 = .jmp 0b10 .backward 0b101100110 ∧
    decode 0b0101_0011_11000011 = .li 0b0011 0b11000011 := by decide

/-- The canonical words of the same instructions (30_encoding.md R63, R66). -/
theorem test_encode :
    [Instr.ld 0b0101 0b10010110, .st 0b1010 0b01101001, .mov 0b0110 0b1001,
      .jmp 0b10 .backward 0b101100110, .li 0b0011 0b11000011, .halt, .illegalOp9, .dec].map encode =
    [0x1596, 0x2A69, 0x3069, 0x4B66, 0x53C3, 0x6000, 0x9000, 0x000A] := by decide

/-- spec/opcode_table.json: `match` and `mask` of the 36 rows, in its order. -/
theorem test_opcode_table :
    opcodeTable =
      [⟨0x0000, 0xFFFF⟩, ⟨0x0001, 0xFFFF⟩, ⟨0x0002, 0xFFFF⟩, ⟨0x0003, 0xFFFF⟩, ⟨0x0004, 0xFFFF⟩,
       ⟨0x0005, 0xFFFF⟩, ⟨0x0006, 0xFFFF⟩, ⟨0x0007, 0xFFFF⟩, ⟨0x0008, 0xFFFF⟩, ⟨0x0009, 0xFFFF⟩,
       ⟨0x000A, 0xFFFF⟩] ++
      [⟨0x000B, 0xFFFF⟩, ⟨0x000C, 0xFFFC⟩, ⟨0x0010, 0xFFF0⟩, ⟨0x0020, 0xFFE0⟩, ⟨0x0040, 0xFFC0⟩,
       ⟨0x0080, 0xFF80⟩, ⟨0x0100, 0xFF00⟩, ⟨0x0200, 0xFE00⟩, ⟨0x0400, 0xFC00⟩, ⟨0x0800, 0xF800⟩] ++
      [⟨0x1000, 0xF000⟩, ⟨0x2000, 0xF000⟩, ⟨0x3000, 0xF000⟩, ⟨0x4000, 0xF000⟩, ⟨0x5000, 0xF000⟩,
       ⟨0x6000, 0xF000⟩] ++
      [⟨0x7000, 0xF000⟩, ⟨0x8000, 0xF000⟩, ⟨0x9000, 0xF000⟩, ⟨0xA000, 0xF000⟩, ⟨0xB000, 0xF000⟩,
       ⟨0xC000, 0xF000⟩, ⟨0xD000, 0xF000⟩, ⟨0xE000, 0xF000⟩, ⟨0xF000, 0xF000⟩] := by decide

theorem test_decode_table_word : decodeTableWord 16 0x4002 = some (.jmp 0 .forward 2) ∧
    decodeTableWord 16 0x8000 = some .illegalOp8 := by decide

/-! ### The ALU function (95_test_vectors.md section 2.2) -/

/-- The word the ALU answers, if it answers one. -/
def word : Except FaultRecord Word → Option Word
  | .ok v => some v
  | .error _ => none

/-- The record the ALU raises, if it raises one. -/
def record : Except FaultRecord Word → Option FaultRecord
  | .ok _ => none
  | .error f => some f

/-- The ALU under a value of `SHIFT_GE16`. -/
def under (k : ShiftGe16) (mode : BitVec 12) (a b : Word) : Except FaultRecord Word :=
  alu ⟨.fields, k⟩ mode a b

/-- A1 to A5. -/
theorem test_alu_shl : [under .zero 0 0x0001 0x000F, under .zero 0 0x8001 0x0001, under .zero 0 0xFFFF 0x0004,
    under .zero 0 0x1234 0x0000, under .zero 0 0x0000 0x0007].map word =
    [some 0x8000, some 0x0002, some 0xFFF0, some 0x1234, some 0x0000] := by decide

/-- A9 to A11. -/
theorem test_alu_shr : [under .zero 1 0x8000 0x000F, under .zero 1 0xFFFF 0x0004,
    under .zero 1 0x1234 0x0000].map word = [some 0x0001, some 0x0FFF, some 0x1234] := by decide

/-- A6 to A8, A12, A13 under `zero`. -/
theorem test_alu_wide_zero : [under .zero 0 0x0001 0x0010, under .zero 0 0xFFFF 0x0011,
    under .zero 0 0x0001 0xFFFF, under .zero 1 0x8000 0x0010, under .zero 1 0xFFFF 0xFFFF].map word =
    [some 0, some 0, some 0, some 0, some 0] := by decide

/-- A6 to A8, A12, A13 under `mod16`. -/
theorem test_alu_wide_mod16 : [under .mod16 0 0x0001 0x0010, under .mod16 0 0xFFFF 0x0011,
    under .mod16 0 0x0001 0xFFFF, under .mod16 1 0x8000 0x0010, under .mod16 1 0xFFFF 0xFFFF].map word =
    [some 0x0001, some 0xFFFE, some 0x8000, some 0x8000, some 0x0001] := by decide

/-- A6 to A8, A12, A13 under `fault`. -/
theorem test_alu_wide_fault : [under .fault 0 0x0001 0x0010, under .fault 0 0xFFFF 0x0011,
    under .fault 0 0x0001 0xFFFF, under .fault 1 0x8000 0x0010, under .fault 1 0xFFFF 0xFFFF].map record =
    [some (.unspecifiedShift 16), some (.unspecifiedShift 17), some (.unspecifiedShift 65535),
      some (.unspecifiedShift 16), some (.unspecifiedShift 65535)] := by decide

/-- A14 to A23. -/
theorem test_alu_bitwise : [under .zero 2 0xF0F0 0xFF00, under .zero 2 0x1234 0xFFFF, under .zero 3 0x0000 0x1234,
    under .zero 3 0xA5A5 0x0007, under .zero 4 0xF0F0 0xFF00, under .zero 4 0x1234 0x1234,
    under .zero 5 0xF0F0 0x0F00, under .zero 5 0 0].map word =
    [some 0xF000, some 0x1234, some 0xFFFF, some 0x5A5A, some 0x0FF0, some 0, some 0xFFF0, some 0] := by decide

/-- A24, A26, A28, A30, A31, A38 to A41. -/
theorem test_alu_arithmetic : [under .zero 6 0xFFFF 0x0001, under .zero 6 0x04D2 0x10E1,
    under .zero 7 0x0000 0x0001, under .zero 7 0x8000 0x0001, under .zero 7 0x0001 0xFFFF,
    under .zero 9 0xFFFF 0x0009, under .zero 9 0 0, under .zero 10 0x0000 0x0009,
    under .zero 10 0x0001 0].map word =
    [some 0, some 0x15B3, some 0xFFFF, some 0x7FFF, some 0x0002, some 0, some 1, some 0xFFFF, some 0] := by decide

/-- A32 to A37. -/
theorem test_alu_compare : [under .zero 8 2 1, under .zero 8 1 2, under .zero 8 7 7, under .zero 8 0x8000 0x7FFF,
    under .zero 8 0 0xFFFF, under .zero 8 0 0].map word =
    [some 9, some 5, some 3, some 9, some 5, some 3] := by decide

/-- A42 to A44. -/
theorem test_alu_invalid : [under .zero 11 1 2, under .zero 16 1 2, under .zero 4095 1 2].map record =
    [some (.invalidAluMode 11), some (.invalidAluMode 16), some (.invalidAluMode 4095)] := by decide

/-! ### One step -/

/-- A running core with a word at `pc`. -/
def cpu (pc : Nat) (w : Word) (x : Vector Word 8 := #v[0, 0, 0, 0, 0, 0, 0, 0]) (dm : Memory := [])
    (c : Config := ⟨.fields, .zero⟩) : State where
  regs := x
  pc := BitVec.ofNat 16 pc
  ir := 0
  status := .running
  fault := none
  dmem := dm
  imem := Memory.write progBlank [] pc w
  config := c

/-- The state a step leaves; no step of this model stops. -/
def after (s : State) : State :=
  match step s with
  | .next t => t
  | .fault f => nomatch f
  | .refused _ => s

/-- AI1. -/
theorem test_add_step : (after (cpu 5 0x0006 #v[0, 200, 100, 77, 0, 0, 0, 0])).getReg 3 = 300 ∧
    (after (cpu 5 0x0006 #v[0, 200, 100, 77, 0, 0, 0, 0])).pc = 6 := by decide

/-- AI2. -/
theorem test_cmp_step : (after (cpu 5 0x0008 #v[0, 3, 9, 0, 0, 0, 0, 0])).getReg 3 = 5 ∧
    (after (cpu 5 0x0008 #v[0, 3, 9, 0, 0, 0, 0, 0])).getReg 4 = 0 := by decide

/-- AI3, its first step. -/
theorem test_inc_step : (after (cpu 5 0x0009 #v[0, 7, 0, 1, 0, 0, 0, 0])).getReg 3 = 8 ∧
    (after (cpu 5 0x0009 #v[0, 7, 0, 1, 0, 0, 0, 0])).getReg 1 = 7 := by decide

/-- AI4. -/
theorem test_invalid_mode_step : (after (cpu 5 0x000B #v[0, 1, 2, 77, 0, 0, 0, 0])).fault =
      some (.invalidAluMode 11) ∧
    (after (cpu 5 0x000B #v[0, 1, 2, 77, 0, 0, 0, 0])).getReg 3 = 77 ∧
    (after (cpu 5 0x000B #v[0, 1, 2, 77, 0, 0, 0, 0])).pc = 5 := by decide

/-- AI5 under its three values. -/
theorem test_shl_wide_step : (after (cpu 5 0 #v[0, 1, 16, 77, 0, 0, 0, 0])).getReg 3 = 0 ∧
    (after (cpu 5 0 #v[0, 1, 16, 77, 0, 0, 0, 0] [] ⟨.fields, .mod16⟩)).getReg 3 = 1 ∧
    (after (cpu 5 0 #v[0, 1, 16, 77, 0, 0, 0, 0] [] ⟨.fields, .fault⟩)).fault =
      some (.unspecifiedShift 16) := by decide

/-- T2, T3. -/
theorem test_li_step : (after (cpu 0 0x5100 #v[0, 0xABCD, 0, 0, 0, 0, 0, 0])).getReg 1 = 0 ∧
    (after (cpu 0 0x5780)).getReg 7 = 128 := by decide

/-- T4. -/
theorem test_st_step : (after (cpu 0 0x260F #v[0, 0, 0, 0, 0, 0, 0xBEEF, 0])).dmem = [(15, 0xBEEF)] ∧
    (after (cpu 0 0x260F #v[0, 0, 0, 0, 0, 0, 0xBEEF, 0])).getReg 6 = 0xBEEF := by decide

/-- Storing what an unlisted cell reads as removes the entry. -/
theorem test_st_zero_is_canonical : (after (cpu 0 0x2002 #v[0, 0, 0, 0, 0, 0, 0, 0] [(1, 7), (2, 8), (3, 9)])).dmem =
    [(1, 7), (3, 9)] := by decide

/-- T5, T6. -/
theorem test_ld_step : (after (cpu 0 0x120F #v[0, 0, 1, 0, 0, 0, 0, 0] [(15, 0xBEEF)])).getReg 2 = 0xBEEF ∧
    (after (cpu 0 0x1000 #v[0, 0, 0, 0, 0, 0, 0, 0] [(0, 5)])).getReg 0 = 5 := by decide

/-- T7, T9 under `fields`. -/
theorem test_mov_fields_step : (after (cpu 0 0x3034 #v[0, 0, 0, 9, 0, 0, 0, 0])).getReg 4 = 9 ∧
    (after (cpu 0 0x3F70 #v[3, 0, 0, 0, 0, 0, 0, 8])).getReg 0 = 8 := by decide

/-- T7 and F13 under `literal`. -/
theorem test_mov_literal_step :
    (after (cpu 0 0x3034 #v[0, 0, 0, 9, 0, 0, 0, 0] [] ⟨.literal, .zero⟩)).getReg 4 = 0 ∧
    (after (cpu 0 0x309A #v[0, 0, 0, 0, 0, 0, 0, 0] [] ⟨.literal, .zero⟩)).status = .running ∧
    (after (cpu 0 0x309A #v[0, 0, 0, 0, 0, 0, 0, 0] [] ⟨.literal, .zero⟩)).pc = 1 := by decide

/-- `pc` after a JUMP at `pc` with this `x[4]`. -/
def jumped (pc : Nat) (flags w : Word) : Word := (after (cpu pc w #v[0, 0, 0, 0, flags, 0, 0, 0])).pc

/-- J1 to J5, J12, J15 to J18, J20, J21. -/
theorem test_jmp_taken :
    [jumped 10 1 0x4000, jumped 10 1 0x4005, jumped 10 1 0x4205, jumped 10 1 0x4201, jumped 10 1 0x4200,
      jumped 10 3 0x4005, jumped 10 1 0x41FF, jumped 10 1 0x43FF, jumped 5 1 0x4206, jumped 5 1 0x4207,
      jumped 60 1 0x4003, jumped 0 1 0x4201] =
    [11, 16, 6, 10, 11, 16, 522, 65036, 0, 65535, 64, 0] := by decide

/-- J6 to J11, J14, J19. -/
theorem test_jmp_not_taken :
    [jumped 10 0 0x4005, jumped 10 2 0x4005, jumped 10 0xFFFF 0x4405, jumped 10 4 0x4805, jumped 10 8 0x4C05,
      jumped 10 0xFFFF 0x4C05, jumped 10 8 0x4005, jumped 63 0 0x4000] =
    [11, 11, 11, 11, 11, 11, 11, 64] := by decide

/-- The HALT vectors of section 2.4. -/
theorem test_halt_step : (after (cpu 7 0x6000)).status = .halted ∧ (after (cpu 7 0x6000)).pc = 7 ∧
    (after (cpu 7 0x6FFF)).status = .halted := by decide

/-- F1 to F7, F16: the record of a data-transfer fault. -/
theorem test_fault_transfer :
    [0x1114, 0x1110, 0x11FF, 0x1800, 0x1914, 0x2914, 0x5F00, 0x2810].map (fun w => (after (cpu 0 w)).fault) =
    [some (.outOfRange .data 20), some (.outOfRange .data 16), some (.outOfRange .data 255),
      some (.outOfRange .reg 8), some (.outOfRange .data 20), some (.outOfRange .reg 9),
      some (.outOfRange .reg 15), some (.outOfRange .reg 8)] := by decide

/-- F8 to F12, F17, F18. -/
theorem test_fault_illegal :
    [0x7000, 0x8123, 0xFFFF, 0x000B, 0x0FFF, 0xC000, 0xB000].map (fun w => (after (cpu 0 w)).fault) =
    [some (.invalidOpcode 7), some (.invalidOpcode 8), some (.invalidOpcode 15), some (.invalidAluMode 11),
      some (.invalidAluMode 4095), some (.invalidOpcode 12), some (.invalidOpcode 11)] := by decide

/-- F13 to F15 under `fields`. -/
theorem test_fault_move : [0x309A, 0x301A, 0x3091].map (fun w => (after (cpu 0 w)).fault) =
    [some (.outOfRange .reg 9), some (.outOfRange .reg 10), some (.outOfRange .reg 9)] := by decide

/-- The last step of P9: the fetch at 64 faults and `pc` stays. -/
theorem test_fetch_fault : (after (cpu 64 0)).fault = some (.outOfRange .prog 64) ∧
    (after (cpu 64 0)).pc = 64 ∧ (after (cpu 64 0)).status = .faulted := by decide

/-! ### Reset and the host -/

/-- P2: the first step of the reset state halts. -/
theorem test_reset_halts : (after State.reset).status = .halted ∧ (after State.reset).pc = 0 := by decide

/-- P1's image: the program, then padding (R145). -/
theorem test_host_start : [0, 1, 2, 3, 63].map (State.reset.hostStart [0x5107, 0x2100, 0x6000]).progAt =
    [0x5107, 0x2100, 0x6000, 0x6000, 0x6000] := by decide

/-- S9: a 65-word image causes no reset. -/
theorem test_long_image : (after (cpu 7 0x6000)).hostStart (List.replicate 65 0x5101) =
    after (cpu 7 0x6000) := by rfl

theorem test_with_fetch_word : (after (State.reset.withFetchWord 16 0x5107)).getReg 1 = 7 := by decide

/-! ### Witnesses: the hypotheses of the statements are met -/

theorem witness_ResetEventGivesResetValues :
    ([] : List Word).length ≤ 64 ∧ (List.replicate 64 (0x5101 : Word)).length ≤ 64 := by decide

theorem witness_ResetStateIsTheEmptyProgram :
    (after (cpu 7 0x6000)).config = State.reset.config ∧ after (cpu 7 0x6000) ≠ State.reset :=
  ⟨rfl, fun h => by have := congrArg State.pc h; revert this; decide⟩

theorem witness_LongProgramNeverReachesTheCore : 64 < (List.replicate 65 (0x5101 : Word)).length := by decide

theorem witness_ResetForgetsTheOldRun : (List.replicate 64 (0x5101 : Word)).length ≤ 64 ∧
    (cpu 7 0x6000).config = (cpu 8 0x5107 #v[1, 2, 3, 4, 5, 6, 7, 8] [(1, 1)]).config := ⟨by decide, rfl⟩

theorem witness_HostReadsTheFinalState : State.reset.status = .running ∧
    (after (cpu 7 0x6000)).status ≠ .running ∧ (after (cpu 0 0x7000)).status ≠ .running ∧ 15 < 16 := by decide

theorem witness_DecodeOfEncodeIsTheInstruction : (Instr.illegalAluMode000C 12).wellFormed = true ∧
    (Instr.illegalAluMode0800 4095).wellFormed = true ∧
    (Instr.jmp 3 .backward 511).wellFormed = true := by decide

theorem witness_StepRunsDecodedInstruction : (cpu 63 0x5107).status = .running ∧
    (cpu 63 0x5107).pc.toNat < 64 ∧ decode ((cpu 63 0x5107).progAt (cpu 63 0x5107).pc.toNat) = .li 1 7 := by
  decide

theorem witness_FetchPhase : (cpu 63 0x5107).status = .running ∧ (cpu 63 0x5107).pc.toNat < 64 ∧
    (cpu 64 0).status = .running ∧ 64 ≤ (cpu 64 0).pc.toNat := by decide

/-- Both terminal statuses. -/
theorem witness_StoppedCoreIsHeld : (after (cpu 7 0x6000)).status = .halted ∧
    (after (cpu 0 0x7000)).status = .faulted ∧
    StepsTo 1 (after (cpu 7 0x6000)) (after (cpu 7 0x6000)) :=
  ⟨by decide, by decide, .cons rfl (.refl _)⟩

/-- A run that ends by HALT, at the last program address, and one that ends by a fault. -/
theorem witness_ARunEndsByHaltOrFault : (cpu 63 0x6FFF).status = .running ∧
    EndsIn 1 (cpu 63 0x6FFF) (after (cpu 63 0x6FFF)) ∧ (cpu 0 0x1914).status = .running ∧
    EndsIn 1 (cpu 0 0x1914) (after (cpu 0 0x1914)) := by
  have first : ∀ s : State, s.status = .running → ∀ k u, k < 1 → StepsTo k s u → u.ended = false := by
    intro s hs k u hk h
    cases h with
    | refl => simp [State.ended, hs]
    | cons _ _ => omega
  exact ⟨rfl, ⟨.cons rfl (.refl _), by decide, first _ rfl⟩, rfl, ⟨.cons rfl (.refl _), by decide, first _ rfl⟩⟩

/-- A step that halts and one that does not. -/
theorem witness_OnlyHaltHalts : (cpu 63 0x6FFF).status = .running ∧
    step (cpu 63 0x6FFF) = .next (after (cpu 63 0x6FFF)) ∧ (after (cpu 63 0x6FFF)).status = .halted ∧
    (cpu 0 0x5107).status = .running ∧ step (cpu 0 0x5107) = .next (after (cpu 0 0x5107)) ∧
    (after (cpu 0 0x5107)).status = .running := ⟨rfl, rfl, by decide, rfl, rfl, by decide⟩

/-- The clauses in order: an ending step; a step that is no type-0 JUMP; bit 0 of `x[4]` clear; forward;
backward. -/
theorem witness_ProgramCounterUpdate :
    (step (cpu 0 0x7000) = .next (after (cpu 0 0x7000)) ∧ (after (cpu 0 0x7000)).status ≠ .running) ∧
    (step (cpu 63 0x4405) = .next (after (cpu 63 0x4405)) ∧ (after (cpu 63 0x4405)).status = .running ∧
      decode (after (cpu 63 0x4405)).ir = .jmp 1 .forward 5) ∧
    (step (cpu 63 0x4005) = .next (after (cpu 63 0x4005)) ∧ (after (cpu 63 0x4005)).status = .running ∧
      ((cpu 63 0x4005).getReg 4).getLsbD 0 = false) ∧
    (step (cpu 63 0x41FF #v[0, 0, 0, 0, 1, 0, 0, 0]) =
        .next (after (cpu 63 0x41FF #v[0, 0, 0, 0, 1, 0, 0, 0])) ∧
      (after (cpu 63 0x41FF #v[0, 0, 0, 0, 1, 0, 0, 0])).status = .running ∧
      decode (after (cpu 63 0x41FF #v[0, 0, 0, 0, 1, 0, 0, 0])).ir = .jmp 0 .forward 511) ∧
    (step (cpu 0 0x43FF #v[0, 0, 0, 0, 1, 0, 0, 0]) =
        .next (after (cpu 0 0x43FF #v[0, 0, 0, 0, 1, 0, 0, 0])) ∧
      (after (cpu 0 0x43FF #v[0, 0, 0, 0, 1, 0, 0, 0])).status = .running ∧
      decode (after (cpu 0 0x43FF #v[0, 0, 0, 0, 1, 0, 0, 0])).ir = .jmp 0 .backward 511 ∧
      ((cpu 0 0x43FF #v[0, 0, 0, 0, 1, 0, 0, 0]).getReg 4).getLsbD 0 = true) :=
  ⟨⟨rfl, by decide⟩, ⟨rfl, by decide, by decide⟩, ⟨rfl, by decide, by decide⟩, ⟨rfl, by decide, by decide⟩,
    ⟨rfl, by decide, by decide, by decide⟩⟩

/-- A register write, a store, and a fault; a slot and an address that each clause speaks of. -/
theorem witness_OneWritePerStep : Memory.wf dataBlank 16 (cpu 0 0x5107).dmem = true ∧
    step (cpu 0 0x5107) = .next (after (cpu 0 0x5107)) ∧
    destinationOf ⟨.fields, .zero⟩ (decode (after (cpu 0 0x5107)).ir) = some 1 ∧
    step (cpu 0 0x260F #v[0, 0, 0, 0, 0, 0, 9, 0]) =
      .next (after (cpu 0 0x260F #v[0, 0, 0, 0, 0, 0, 9, 0])) ∧
    storedAddress (decode (after (cpu 0 0x260F #v[0, 0, 0, 0, 0, 0, 9, 0])).ir) = some 15 ∧
    step (cpu 0 0x2610) = .next (after (cpu 0 0x2610)) ∧ (after (cpu 0 0x2610)).status = .faulted :=
  ⟨rfl, rfl, by decide, rfl, by decide, rfl, by decide⟩

theorem witness_FlagsRegisterIsWrittenOnlyByName : step (cpu 0 0x54FF) = .next (after (cpu 0 0x54FF)) ∧
    (after (cpu 0 0x54FF)).getReg 4 ≠ (cpu 0 0x54FF).getReg 4 := ⟨rfl, by decide⟩

theorem witness_OnlyStoreWritesTheDataRam :
    Memory.wf dataBlank 16 (cpu 0 0x260F #v[0, 0, 0, 0, 0, 0, 9, 0]).dmem = true ∧
    step (cpu 0 0x260F #v[0, 0, 0, 0, 0, 0, 9, 0]) =
      .next (after (cpu 0 0x260F #v[0, 0, 0, 0, 0, 0, 9, 0])) ∧
    (after (cpu 0 0x260F #v[0, 0, 0, 0, 0, 0, 9, 0])).dataAt 15 ≠
      (cpu 0 0x260F #v[0, 0, 0, 0, 0, 0, 9, 0]).dataAt 15 := ⟨by decide, rfl, by decide⟩

theorem witness_InstructionRamIsConstant :
    StepsTo 1 (State.reset.resetEvent (Vector.replicate 64 0x5101))
      (after (State.reset.resetEvent (Vector.replicate 64 0x5101))) := .cons rfl (.refl _)

theorem witness_InstructionRegisterIsUnobservable : step (cpu 64 0) = .next (after (cpu 64 0)) ∧
    step (cpu 0 0x5107) = .next (after (cpu 0 0x5107)) := ⟨rfl, rfl⟩

theorem witness_TakenJumpToItselfNeverEnds :
    (cpu 63 0x4201 #v[0, 0, 0, 0, 1, 0, 0, 0]).status = .running ∧
    (cpu 63 0x4201 #v[0, 0, 0, 0, 1, 0, 0, 0]).pc.toNat < 64 ∧
    (cpu 63 0x4201 #v[0, 0, 0, 0, 1, 0, 0, 0]).progAt (cpu 63 0x4201).pc.toNat = 0x4201 ∧
    ((cpu 63 0x4201 #v[0, 0, 0, 0, 1, 0, 0, 0]).getReg 4).getLsbD 0 = true := by decide

theorem witness_PlacedWordIsRunNext : Memory.wf progBlank 64 (cpu 63 0x4201).imem = true := by decide

/-- A fault in the execute phase and one in the fetch. -/
theorem witness_FaultIsPreciseAndFinal : (cpu 63 0x1110).status = .running ∧
    step (cpu 63 0x1110) = .next (after (cpu 63 0x1110)) ∧ (after (cpu 63 0x1110)).status = .faulted ∧
    step (cpu 64 0) = .next (after (cpu 64 0)) ∧ (after (cpu 64 0)).status = .faulted :=
  ⟨rfl, rfl, by decide, rfl, by decide⟩

/-- The invariant holds of the small states of these tests. -/
theorem cpu_inv {pc : Nat} {w : Word} (x : Vector Word 8) (c : Config)
    (h : Memory.wf progBlank 64 (Memory.write progBlank [] pc w) = true) : (cpu pc w x [] c).Inv :=
  ⟨rfl, h, by simp [cpu], by simp [cpu]⟩

/-- `pc` in and out of range. -/
theorem witness_FaultsAreThoseOfTheCheckOrder : (cpu 63 0x1914).Inv ∧ (cpu 63 0x1914).status = .running ∧
    step (cpu 63 0x1914) = .next (after (cpu 63 0x1914)) ∧ (cpu 64 0x6000).Inv ∧
    64 ≤ (cpu 64 0x6000).pc.toNat ∧ step (cpu 64 0x6000) = .next (after (cpu 64 0x6000)) :=
  ⟨cpu_inv _ _ (by decide), rfl, rfl, cpu_inv _ _ (by decide), by decide, rfl⟩

theorem witness_RegisterIndexCheck : 8 ≤ (8#4).toNat ∧ (7#4).toNat < 8 := by decide

theorem witness_MemoryAccessContract : Memory.wf dataBlank 16 [(0, 7), (15, 8)] = true ∧
    Memory.wf dataBlank 16 [(15, 0)] = false ∧ Memory.wf dataBlank 16 [(16, 1)] = false := by decide

theorem witness_HostPadsTheProgram :
    (List.replicate 64 (0x5101 : Word)).length ≤ 64 ∧ [(0x5101 : Word)].length ≤ 64 := by decide

theorem witness_HostStartMeetsTheInvariant : (List.replicate 64 (0x5101 : Word)).length ≤ 64 := by decide

theorem witness_EveryStepKeepsTheInvariant : (cpu 0 0x7000).Inv ∧
    step (cpu 0 0x7000) = .next (after (cpu 0 0x7000)) := ⟨cpu_inv _ _ (by decide), rfl⟩

theorem witness_FaultRecordIsWrittenOnce : (after (cpu 0 0x7000)).Inv ∧
    StepsTo 1 (after (cpu 0 0x7000)) (after (cpu 0 0x7000)) ∧
    (after (cpu 0 0x7000)).fault = some (.invalidOpcode 7) := by
  refine ⟨⟨by decide, by decide, by decide, fun f hf => ?_⟩, .cons rfl (.refl _), by decide⟩
  have h : (after (cpu 0 0x7000)).fault = some (.invalidOpcode 7) := by decide
  rw [h, Option.some.injEq] at hf
  subst hf
  decide

theorem witness_ShiftsBelowTheWidth : ((cpu 0 0 #v[0, 1, 15, 0, 0, 0, 0, 0]).getReg 2).toNat ≤ 15 := by decide

/-- The least amount beyond the width, under each value of the parameter. -/
theorem witness_ShiftsAtOrAboveTheWidth :
    ∀ k ∈ [ShiftGe16.zero, .mod16, .fault],
      16 ≤ ((cpu 0 0 #v[0, 1, 16, 0, 0, 0, 0, 0] [] ⟨.fields, k⟩).getReg 2).toNat ∧
      (cpu 0 0 #v[0, 1, 16, 0, 0, 0, 0, 0] [] ⟨.fields, k⟩).config.shiftGe16 = k := by decide

/-- `a > b`, `a < b` and `a = b`. -/
theorem witness_CompareInstruction :
    ((cpu 0 8 #v[0, 0x8000, 0x7FFF, 0, 0, 0, 0, 0]).getReg 2).toNat <
      ((cpu 0 8 #v[0, 0x8000, 0x7FFF, 0, 0, 0, 0, 0]).getReg 1).toNat ∧
    ((cpu 0 8 #v[0, 0, 0xFFFF, 0, 0, 0, 0, 0]).getReg 1).toNat <
      ((cpu 0 8 #v[0, 0, 0xFFFF, 0, 0, 0, 0, 0]).getReg 2).toNat ∧
    (cpu 0 8 #v[0, 7, 7, 0, 0, 0, 0, 0]).getReg 1 = (cpu 0 8 #v[0, 7, 7, 0, 0, 0, 0, 0]).getReg 2 := by decide

theorem witness_InvalidAluModesFault : 11 ≤ (11#12).toNat ∧ 11 ≤ (4095#12).toNat := by decide

theorem witness_AluAnswersExactlyTheElevenModes : 11 ≤ (11#12).toNat ∧ ¬ 11 ≤ (10#12).toNat := by decide

theorem witness_OpcodeZeroAppliesTheAlu :
    alu (cpu 0 6).config 6 ((cpu 0 6).getReg 1) ((cpu 0 6).getReg 2) = .ok 0 ∧
    alu (cpu 0 11).config 11 ((cpu 0 11).getReg 1) ((cpu 0 11).getReg 2) = .error (.invalidAluMode 11) :=
  ⟨rfl, rfl⟩

theorem witness_AluInstructionsFrame : ∃ t u, exec .add (cpu 0 6) = .next t ∧ t.status = .running ∧
    exec (.illegalAluMode0800 4095) (cpu 0 0x0FFF) = .next u ∧ u.status = .faulted :=
  ⟨_, _, rfl, rfl, rfl, rfl⟩

/-- The clauses in order, each at the bound. -/
theorem witness_LoadInstruction : ((7#4).toNat = (7 : Fin 8).val ∧ (15#8).toNat < 16) ∧ 16 ≤ (16#8).toNat ∧
    ((15#8).toNat < 16 ∧ 8 ≤ (8#4).toNat) := by decide

/-- The clauses in order, each at the bound. -/
theorem witness_StoreInstruction : Memory.wf dataBlank 16 (cpu 0 0x2000).dmem = true ∧
    ((7#4).toNat = (7 : Fin 8).val ∧ (15#8).toNat < 16) ∧ 8 ≤ (8#4).toNat ∧
    ((7#4).toNat < 8 ∧ 16 ≤ (16#8).toNat) := by decide

/-- The clauses in order, each at the bound. -/
theorem witness_MoveUnderFields : (cpu 0 0x3000).config.moveSemantics = .fields ∧
    ((7#4).toNat = (7 : Fin 8).val ∧ (0#4).toNat = (0 : Fin 8).val) ∧ 8 ≤ (8#4).toNat ∧
    ((7#4).toNat < 8 ∧ 8 ≤ (8#4).toNat) := by decide

theorem witness_MoveUnderLiteral :
    (cpu 0 0x3000 #v[0, 0, 0, 0, 0, 0, 0, 0] [] ⟨.literal, .zero⟩).config.moveSemantics = .literal := by decide

theorem witness_LoadImmediateInstruction : (7#4).toNat = (7 : Fin 8).val ∧ 8 ≤ (8#4).toNat := by decide

theorem witness_RegistersArePlainStorage : (0#4).toNat = (0 : Fin 8).val ∧ (15#8).toNat < 16 ∧
    (cpu 0 0x3000).config.moveSemantics = .fields ∧ (7#4).toNat = (7 : Fin 8).val := by decide

theorem witness_StoreThenLoadReturnsTheWord : Memory.wf dataBlank 16 (cpu 0 0x2000).dmem = true ∧
    (7#4).toNat = (7 : Fin 8).val ∧ (0#4).toNat = (0 : Fin 8).val ∧ (15#8).toNat < 16 := by decide

theorem witness_RegisterTransfersFrame : ∃ t u v, exec (.ld 7 15) (cpu 0 0x170F) = .next t ∧
    exec (.li 8 1) (cpu 0 0x5801) = .next u ∧ exec (.mov 6 1) (cpu 0 0x3061) = .next v :=
  ⟨_, _, _, rfl, rfl, rfl⟩

theorem witness_StoreFrame : Memory.wf dataBlank 16 (cpu 0 0x270F).dmem = true ∧
    ∃ t u, exec (.st 7 15) (cpu 0 0x270F) = .next t ∧ exec (.st 7 16) (cpu 0 0x2710) = .next u :=
  ⟨rfl, _, _, rfl, rfl⟩

/-- Taken forward, taken backward, not taken. -/
theorem witness_JumpInstruction :
    ((cpu 63 0x41FF #v[0, 0, 0, 0, 1, 0, 0, 0]).getReg 4).getLsbD 0 = true ∧
    ¬ ((1#2) = 0 ∧ ((cpu 63 0x41FF #v[0, 0, 0, 0, 1, 0, 0, 0]).getReg 4).getLsbD 0 = true) ∧
    ¬ ((0#2) = 0 ∧ ((cpu 63 0x41FF).getReg 4).getLsbD 0 = true) := by decide

theorem witness_UnassignedOpcodesFault : ((7#4) = 7 ∨ 12 ≤ (7#4).toNat) ∧ ((12#4) = 7 ∨ 12 ≤ (12#4).toNat) ∧
    ((15#4) = 7 ∨ 12 ≤ (15#4).toNat) := by decide

theorem witness_OpcodesEightToElevenFault : (8 ≤ (8#4).toNat ∧ (8#4).toNat ≤ 11) ∧
    (8 ≤ (11#4).toNat ∧ (11#4).toNat ≤ 11) := by decide

theorem witness_ControlInstructionsFrame : ∃ t u v, exec (.jmp 0 .forward 5) (cpu 0 0x4005) = .next t ∧
    exec .halt (cpu 0 0x6000) = .next u ∧ exec .illegalOp7 (cpu 0 0x7000) = .next v :=
  ⟨_, _, _, rfl, rfl, rfl⟩

end Sys2Proof.Tests
end

section
/-! The state's rules (10_state.md): what each operation does to the invariant, what an effect can write, and
what the reset leaves. -/

namespace Sys2Proof.Machine

/-! ### The invariant, operation by operation -/

section Invariant

variable {s : State} (h : s.Inv)
include h

theorem State.Inv.setReg (i : Fin 8) (v : Word) : (s.setReg i v).Inv :=
  ⟨h.dmem_wf, h.imem_wf, h.record_iff, h.record_legal⟩

theorem State.Inv.setPc (v : Word) : (s.setPc v).Inv :=
  ⟨h.dmem_wf, h.imem_wf, h.record_iff, h.record_legal⟩

theorem State.Inv.setIr (w : Word) : (s.setIr w).Inv :=
  ⟨h.dmem_wf, h.imem_wf, h.record_iff, h.record_legal⟩

theorem State.Inv.advance : s.advance.Inv := h.setPc _

theorem State.Inv.setData {a : Nat} (ha : a < 16) (v : Word) : (s.setData a v).Inv :=
  ⟨Memory.wf_write h.dmem_wf ha v, h.imem_wf, h.record_iff, h.record_legal⟩

theorem State.Inv.raise {f : FaultRecord} (hf : f.legal s.config = true) : (s.raise f).Inv where
  dmem_wf := h.dmem_wf
  imem_wf := h.imem_wf
  record_iff := by simp
  record_legal g hg := by
    obtain rfl : f = g := by simpa using hg
    exact hf

/-- Halting keeps the invariant of a core that runs; one that had faulted would hide its record. -/
theorem State.Inv.halt (hr : s.status = .running) : s.halt.Inv where
  dmem_wf := h.dmem_wf
  imem_wf := h.imem_wf
  record_iff := by simpa [hr] using h.record_iff
  record_legal := h.record_legal

/-- A state that holds a record has faulted. -/
theorem State.Inv.faulted_of_record {f : FaultRecord} (hf : s.fault = some f) : s.status = .faulted :=
  h.record_iff.1 (by simp [hf])

/-- Every effect on a running core keeps the invariant. -/
theorem State.Inv.effect {i : Instr} {t : State} (hr : s.status = .running) (e : Effect s i t) : t.Inv := by
  cases e with
  | fault _ f hf => exact h.raise hf
  | alu | ld | li | movFields => exact (h.setReg _ _).advance
  | movLiteral => exact h.advance
  | st _ _ _ _ ha => exact (h.setData ha _).advance
  | jmp => exact (h.setPc _).advance
  | halt => exact h.halt hr

end Invariant

/-- A reported program address is one the fetch reports. -/
theorem legal_prog {pc : Word} (h : 64 ≤ pc.toNat) (c : Config) :
    (FaultRecord.outOfRange .prog pc.toNat).legal c = true := by
  have := pc.isLt
  simp only [FaultRecord.legal, decide_eq_true_eq]
  omega

/-! ### What an effect writes -/

section Effects

variable {s t : State} {i : Instr}

/-- A register changes only as the ALU's output or as the destination a register transfer names (R13). -/
theorem Effect.register_written (e : Effect s i t) {j : Fin 8} (hne : t.getReg j ≠ s.getReg j) :
    (IsAluRow i = true ∧ j = 3) ∨
      ∃ d : BitVec 4, d.toNat = j.val ∧ ((∃ a, i = .ld d a) ∨ (∃ v, i = .li d v) ∨
        (s.config.moveSemantics = .fields ∧ ∃ src, i = .mov src d)) := by
  have slot : ∀ {k v}, (s.setReg k v).getReg j ≠ s.getReg j → j = k := fun hk =>
    of_not_not fun hjk => hk (s.getReg_setReg_ne _ _ _ (Ne.symm hjk))
  cases e with
  | alu _ v hi => exact .inl ⟨hi, slot hne⟩
  | ld r a k hr =>
    obtain rfl := slot hne
    exact .inr ⟨r, hr, .inl ⟨a, rfl⟩⟩
  | li r v k hr =>
    obtain rfl := slot hne
    exact .inr ⟨r, hr, .inr (.inl ⟨v, rfl⟩)⟩
  | movFields src dst k k' hm _ hd =>
    obtain rfl := slot hne
    exact .inr ⟨dst, hd, .inr (.inr ⟨hm, src, rfl⟩)⟩
  | fault | movLiteral | st | jmp | halt => exact absurd rfl hne

/-- A data cell changes only in the STORE that names it, to the register it names (R22). -/
theorem Effect.cell_written (e : Effect s i t) (hwf : Memory.wf dataBlank 16 s.dmem = true) {a : Nat}
    (hne : t.dataAt a ≠ s.dataAt a) :
    a < 16 ∧ ∃ (r : BitVec 4) (b : BitVec 8) (j : Fin 8), i = .st r b ∧ b.toNat = a ∧ r.toNat = j.val ∧
      t.dataAt a = s.getReg j := by
  cases e with
  | st r b j hr hb =>
    simp only [State.dataAt_advance, State.dataAt_setData hwf] at hne ⊢
    obtain rfl : a = b.toNat := of_not_not fun ha => hne (if_neg ha)
    exact ⟨hb, r, b, j, rfl, rfl, hr, if_pos rfl⟩
  | fault | alu | ld | li | movFields | movLiteral | jmp | halt => exact absurd rfl hne

/-- Only a STORE has an effect on memory. -/
theorem Effect.sameMemory (e : Effect s i t) (hi : storedAddress i = none) : SameMemory s t := by
  cases e with
  | st => cases hi
  | fault | alu | ld | li | movFields | movLiteral | jmp | halt =>
    exact ⟨fun _ => rfl, fun _ => rfl, rfl⟩

/-- Only HALT changes the status without taking a fault. -/
theorem Effect.status_kept_or_faultTaken (e : Effect s i t) (hi : i ≠ .halt) :
    (t.status = s.status ∧ t.fault = s.fault) ∨ FaultTaken s t := by
  cases e with
  | fault _ f => exact .inr ⟨f, rfl⟩
  | halt => exact absurd rfl hi
  | alu | ld | li | movFields | movLiteral | st | jmp => exact .inl ⟨rfl, rfl⟩

/-- An instruction with no destination, in a register or in memory, and no ALU row changes `pc` alone, halts
or takes a fault. -/
theorem Effect.control (e : Effect s i t) (ha : IsAluRow i = false) (hd : destinationOf s.config i = none)
    (hm : storedAddress i = none) :
    (∃ p, t = { s with pc := p }) ∨ t = { s with status := .halted } ∨ FaultTaken s t := by
  cases e with
  | fault _ f => exact .inr (.inr ⟨f, rfl⟩)
  | jmp => exact .inl ⟨_, rfl⟩
  | halt => exact .inr (.inl rfl)
  | alu _ _ hi => simp [hi] at ha
  | ld | li => cases hd
  | movFields _ _ _ _ hf => simp [destinationOf, hf] at hd
  | movLiteral _ _ hl => simp [destinationOf, hl] at hd
  | st => cases hm

end Effects

/-- A step leaves registers and data RAM alone, or it is the effect of the instruction it left in `ir`. -/
theorem step_keeps_or_effect {s t : State} (h : step s = .next t) :
    (t.regs = s.regs ∧ t.dmem = s.dmem) ∨ Effect (s.setIr t.ir) (decode t.ir) t := by
  rcases step_cases h with ⟨-, rfl⟩ | ⟨-, -, rfl⟩ | ⟨-, -, -, e⟩
  · exact .inl ⟨rfl, rfl⟩
  · exact .inl ⟨rfl, rfl⟩
  · have hir : t.ir = s.progAt s.pc.toNat := e.keeps.1
    exact .inr (hir ▸ e)

/-! ### The register transfers that complete -/

theorem exec_ld_slot (s : State) {d : BitVec 4} {j : Fin 8} (hd : d.toNat = j.val) {addr : BitVec 8}
    (ha : addr.toNat < 16) :
    exec (.ld d addr) s = .next (s.setReg j (s.dataAt addr.toNat)).advance := by
  simp [exec, execLd, effectiveAddr, memRead_ok s ha, regCheck_slot hd]

theorem exec_li_slot (s : State) {d : BitVec 4} {j : Fin 8} (hd : d.toNat = j.val) (value : BitVec 8) :
    exec (.li d value) s = .next (s.setReg j (zext8 value)).advance := by
  simp [exec, execLi, regCheck_slot hd]

theorem exec_mov_slots {s : State} (hm : s.config.moveSemantics = .fields) {src d : BitVec 4} {i j : Fin 8}
    (hs : src.toNat = i.val) (hd : d.toNat = j.val) :
    exec (.mov src d) s = .next (s.setReg j (s.getReg i)).advance := by
  simp [exec, execMov, hm, moveFields, regCheck_slot hs, regCheck_slot hd]

/-- A value written to a slot and the common update: the slot holds it, the others what they held (R12). -/
theorem getReg_setReg_advance (s : State) (j : Fin 8) (v : Word) :
    (s.setReg j v).advance.getReg j = v ∧ ∀ k, k ≠ j → (s.setReg j v).advance.getReg k = s.getReg k :=
  ⟨s.getReg_setReg_self j v, fun k hk => s.getReg_setReg_ne j k v hk.symm⟩

@[simp] theorem zext8_toNat (v : BitVec 8) : (zext8 v).toNat = v.toNat :=
  BitVec.toNat_setWidth_of_le (by decide)

/-! ### Reset -/

@[simp] theorem State.getReg_reset (i : Fin 8) : State.reset.getReg i = 0 := by
  simp [State.getReg, State.reset]

/-- The padded program, read past its end as the padding word (70_reset_and_hazards.md R145). -/
theorem padWords_getD (p : List Word) (a : Nat) :
    (padWords p).getD a progBlank = if a < p.length then p.getD a 0 else 0x6000 := by
  rw [padWords]
  split
  · next ha => simp [List.getElem?_append_left ha, ha]
  · next ha =>
    rw [List.getD_append_right _ _ _ _ (Nat.not_lt.1 ha)]
    exact List.getElem?_getD_replicate_default_eq _ _ _

/-- Words that read as the unlisted ones take no cell. -/
theorem cellsFrom_replicate_blank (blank : Word) (k n : Nat) :
    cellsFrom blank k (List.replicate n blank) = [] := by
  induction n generalizing k with
  | zero => rfl
  | succ n ih => simp [List.replicate_succ, cellsFrom, ih]

/-! ### The obligations -/

/-- Settles O34: each case of a step keeps the invariant, by the rule of the operation it applies. -/
theorem everyStepKeepsTheInvariant : Obligations.EveryStepKeepsTheInvariant := by
  intro s t h hstep
  rcases step_cases hstep with ⟨-, rfl⟩ | ⟨-, hp, rfl⟩ | ⟨hr, -, -, e⟩
  · exact h
  · exact h.raise (legal_prog hp _)
  · exact (h.setIr (s.progAt s.pc.toNat)).effect hr e

/-- Settles O22: of the instructions that write a register by name, by the slot they name. -/
theorem flagsRegisterIsWrittenOnlyByName : Obligations.FlagsRegisterIsWrittenOnlyByName := by
  intro s t hstep hne
  rcases step_keeps_or_effect hstep with ⟨hregs, -⟩ | e
  · exact absurd (by simp only [State.getReg, hregs]) hne
  · obtain ⟨-, h⟩ | ⟨d, hd, hi⟩ := e.register_written hne
    · exact absurd h (by decide)
    · obtain rfl : d = 4 := BitVec.eq_of_toNat_eq hd
      exact hi

/-- Settles O23: of the effects, only the STORE's writes the data RAM. -/
theorem onlyStoreWritesTheDataRam : Obligations.OnlyStoreWritesTheDataRam := by
  intro s t hwf hstep a hne
  rcases step_keeps_or_effect hstep with ⟨-, hdmem⟩ | e
  · exact absurd (by simp only [State.dataAt, hdmem]) hne
  · obtain ⟨ha, r, b, j, hi, rfl, hr, hv⟩ := e.cell_written hwf hne
    exact ⟨ha, r, j, by simpa using hi, hr, hv⟩

/-- Settles O25: a running core that fetches overwrites `ir`; any other step carries it along. -/
theorem instructionRegisterIsUnobservable : Obligations.InstructionRegisterIsUnobservable := by
  intro s t w hstep
  rcases step_cases hstep with ⟨hr, rfl⟩ | ⟨hr, hp, rfl⟩ | ⟨hr, hp, hexec, -⟩
  · exact ⟨_, step_stopped (s := t.setIr w) hr, rfl⟩
  · exact ⟨_, step_fetch_fault (s := s.setIr w) hr hp, rfl⟩
  · exact ⟨t, (step_running (s := s.setIr w) hr hp).trans hexec, rfl⟩

/-- Settles O35: a state with a record has faulted, and a stopped core is held. -/
theorem faultRecordIsWrittenOnce : Obligations.FaultRecordIsWrittenOnce := by
  intro n s t f h hrun hf
  have hs := h.faulted_of_record hf
  obtain rfl : t = s := hrun.eq_of_stopped (by simp [hs])
  exact ⟨hf, hs⟩

/-- Settles O50: each transfer that completes writes its slot as a plain one. -/
theorem registersArePlainStorage : Obligations.RegistersArePlainStorage := by
  refine ⟨fun s d j hd => ⟨fun addr ha => ?_, fun value => ?_, fun hm src i hs => ?_⟩, fun s image => ?_⟩
  · exact ⟨_, exec_ld_slot s hd ha, getReg_setReg_advance s j _⟩
  · obtain ⟨hself, hother⟩ := getReg_setReg_advance s j (zext8 value)
    exact ⟨_, exec_li_slot s hd value, by rw [hself, zext8_toNat], hother⟩
  · exact ⟨_, exec_mov_slots hm hs hd, getReg_setReg_advance s j _⟩
  · exact State.getReg_reset 0

/-- Settles O52: the slot a register transfer changes is the one its destination field names. -/
theorem registerTransfersFrame : Obligations.RegisterTransfersFrame := by
  intro s t dst src low i hi hexec
  have e := exec_effect hexec
  simp only [List.mem_cons, List.not_mem_nil, or_false] at hi
  obtain ⟨halu, hmem, hhalt⟩ : IsAluRow i = false ∧ storedAddress i = none ∧ i ≠ .halt := by
    rcases hi with rfl | rfl | rfl <;> exact ⟨rfl, rfl, nofun⟩
  refine ⟨fun j hj => ?_, e.sameMemory hmem, e.keeps.1, e.status_kept_or_faultTaken hhalt⟩
  by_contra hne
  obtain ⟨ha, -⟩ | ⟨d, hd, hw⟩ := e.register_written hne
  · simp [halu] at ha
  · have hdst : d = dst := by rcases hi with rfl | rfl | rfl <;> simp_all
    exact hj (hdst ▸ hd.symm)

/-- Settles O53: a STORE writes the data cell it names and nothing else, or takes a fault. -/
theorem storeFrame : Obligations.StoreFrame := by
  intro s t reg addr hwf hexec
  cases exec_effect hexec with
  | fault _ f => exact ⟨rfl, fun _ _ => rfl, fun _ => rfl, rfl, rfl, .inr ⟨f, rfl⟩⟩
  | alu _ _ hi => cases hi
  | st =>
    refine ⟨rfl, fun a ha => ?_, fun _ => rfl, rfl, rfl, .inl ⟨rfl, rfl⟩⟩
    rw [State.dataAt_advance, State.dataAt_setData hwf]
    exact if_neg ha

/-- Settles O58: JUMP, HALT and the illegal opcodes name no destination. -/
theorem controlInstructionsFrame : Obligations.ControlInstructionsFrame := by
  intro s t jumpType jumpSign jumpSize i hi hexec
  obtain ⟨ha, hd, hm⟩ :
      IsAluRow i = false ∧ destinationOf s.config i = none ∧ storedAddress i = none := by
    revert i
    simp [IsAluRow, destinationOf, storedAddress]
  have hcases := (exec_effect hexec).control ha hd hm
  obtain ⟨hregs, hmem, hir⟩ : t.regs = s.regs ∧ SameMemory s t ∧ t.ir = s.ir := by
    rcases hcases with ⟨p, rfl⟩ | rfl | ⟨f, rfl⟩ <;>
      exact ⟨rfl, ⟨fun _ => rfl, fun _ => rfl, rfl⟩, rfl⟩
  exact ⟨hregs, hmem, hir, hcases⟩

/-- Settles O1: the instruction RAM reads as the padded program, every other item as in the reset state. -/
theorem resetEventGivesResetValues : Obligations.ResetEventGivesResetValues := by
  intro s p hp
  rw [hostStart_fits s hp]
  refine ⟨State.getReg_reset, rfl, rfl, rfl, rfl, fun _ => rfl, fun a => ?_, rfl⟩
  exact (read_cellsFrom progBlank 0 (padWords p) a).trans (padWords_getD p a)

/-- Settles O2: the padding of the empty program takes no cell of the instruction RAM. -/
theorem resetStateIsTheEmptyProgram : Obligations.ResetStateIsTheEmptyProgram := by
  refine ⟨fun s hs => ?_, State.getReg_reset, rfl, rfl, rfl, rfl, fun _ => rfl, fun _ => rfl, rfl⟩
  have hpad : cellsFrom progBlank 0 (padWords []) = State.reset.imem := cellsFrom_replicate_blank _ 0 64
  rw [hostStart_fits s (p := []) (by decide), hpad, hs]

/-- Settles O30, by the two answers of the index check. -/
theorem registerIndexCheck : Obligations.RegisterIndexCheck :=
  fun _ => ⟨regCheck_error, fun h => ⟨_, regCheck_ok h, rfl⟩⟩

/-- Settles O32: empty memories are canonical, and nothing is recorded. -/
theorem resetMeetsTheInvariant : Obligations.ResetMeetsTheInvariant where
  dmem_wf := Memory.wf_nil _ _
  imem_wf := Memory.wf_nil _ _
  record_iff := by simp [State.reset]
  record_legal _ hf := nomatch hf

end Sys2Proof.Machine
end

section
/-! The memory's rules (20_memory.md): the instruction RAM and the parameters along a run, the accesses, and the
data-memory round trip. -/

namespace Sys2Proof.Machine

/-! ### What a run keeps -/

/-- No step touches the instruction RAM or the parameters (R45). -/
theorem step_keeps_imem_config {s t : State} (h : step s = .next t) : t.imem = s.imem ∧ t.config = s.config := by
  rcases step_cases h with ⟨-, rfl⟩ | ⟨-, -, rfl⟩ | ⟨-, -, -, e⟩
  · exact ⟨rfl, rfl⟩
  · exact ⟨rfl, rfl⟩
  · exact e.keeps.2

/-- Nor does any number of steps. -/
theorem StepsTo.keeps_imem_config {n : Nat} {s t : State} (r : StepsTo n s t) :
    t.imem = s.imem ∧ t.config = s.config := by
  induction r with
  | refl s => exact ⟨rfl, rfl⟩
  | cons h _ ih =>
    obtain ⟨himem, hconfig⟩ := step_keeps_imem_config h
    exact ⟨ih.1.trans himem, ih.2.trans hconfig⟩

/-- The fetch reads the instruction RAM alone. -/
theorem State.progAt_congr {s t : State} (h : t.imem = s.imem) (a : Nat) : t.progAt a = s.progAt a :=
  congrArg (Memory.read progBlank · a) h

/-- After the reset event every program address reads as the image's word (R45; 10_state.md R24). -/
theorem State.progAt_resetEvent (s : State) (image : Image) (a : Fin 64) :
    (s.resetEvent image).progAt a.val = image[a] := by
  have hread : (s.resetEvent image).progAt a.val = image.toList.getD a.val progBlank :=
    read_cellsFrom progBlank 0 image.toList a.val
  rw [hread]
  simp

/-! ### The STORE that completes -/

theorem exec_st_slot (s : State) {r : BitVec 4} {i : Fin 8} (hr : r.toNat = i.val) {addr : BitVec 8}
    (ha : addr.toNat < 16) :
    exec (.st r addr) s = .next (s.setData addr.toNat (s.getReg i)).advance := by
  simp [exec, execSt, effectiveAddr, regCheck_slot hr, memWrite_ok s ha]

/-! ### The obligations -/

/-- Settles O24: each step keeps the instruction RAM, and the reset event put the image there. -/
theorem instructionRamIsConstant : Obligations.InstructionRamIsConstant := by
  intro n s t hrun
  obtain ⟨himem, hconfig⟩ := hrun.keeps_imem_config
  refine ⟨himem, hconfig, State.progAt_congr himem, fun u image hs a => ?_⟩
  rw [State.progAt_congr himem, hs, State.progAt_resetEvent]

/-- Settles O31, by the answers of the three accesses on each side of their bounds. -/
theorem memoryAccessContract : Obligations.MemoryAccessContract := fun s _ v hwf =>
  ⟨fun ha => ⟨memRead_error s ha, memWrite_error s ha v⟩, progRead_error s, progRead_ok s,
    fun ha => ⟨memRead_ok s ha, _, memWrite_ok s ha v, rfl, State.dataAt_setData hwf _ v⟩⟩

/-- Settles O51: the LOAD reads the cell the STORE wrote, in the state the STORE left. -/
theorem storeThenLoadReturnsTheWord : Obligations.StoreThenLoadReturnsTheWord := by
  intro s r d addr i j hwf hr hd ha
  refine ⟨_, _, exec_st_slot s hr ha, exec_ld_slot _ hd ha, ?_⟩
  rw [(getReg_setReg_advance _ j _).1, State.dataAt_advance, State.dataAt_setData hwf, if_pos rfl]

end Sys2Proof.Machine
end

section
/-! The encoding's rules (30_encoding.md): a word as its fields, the encoded formats as numbers and read back, the
illegal opcodes. -/

namespace Sys2Proof

/-! ### A word as its fields -/

/-- A field holds the value its bits spell (R58). -/
theorem bits_eq {w : Word} {lo len : Nat} {x : BitVec len} (h : w.toNat / 2 ^ lo % 2 ^ len = x.toNat) :
    bits w lo len = x :=
  BitVec.eq_of_toNat_eq ((bits_toNat w lo len).trans h)

theorem toNat_of_opcodeOf {w : Word} {o : BitVec 4} (h : opcodeOf w = o) : w.toNat / 4096 = o.toNat := by
  rw [← opcodeOf_toNat, h]

theorem encodeM_fields (w : Word) : encodeM (opcodeOf w) (bits w 8 4) (bits w 0 8) = w := by
  apply BitVec.eq_of_toNat_eq
  rw [encodeM, append_toNat, append_toNat, opcodeOf_toNat, bits_toNat, bits_toNat]
  omega

@[simp] theorem signOfBit_bitOfSign (g : JumpSign) : signOfBit (bitOfSign g) = g := by cases g <;> rfl

@[simp] theorem bitOfSign_signOfBit (b : BitVec 1) : bitOfSign (signOfBit b) = b := by
  revert b; decide

/-! ### The formats as numbers (R52 to R57) -/

theorem encodeA_toNat (mode : BitVec 12) : (encodeA mode).toNat = mode.toNat := by
  rw [encodeA, append_toNat, BitVec.toNat_ofNat]
  omega

theorem encodeM_toNat (o reg : BitVec 4) (low : BitVec 8) :
    (encodeM o reg low).toNat = o.toNat * 4096 + reg.toNat * 256 + low.toNat := by
  rw [encodeM, append_toNat, append_toNat]
  omega

theorem encodeR_toNat (src dst : BitVec 4) :
    (encodeR src dst).toNat = 3 * 4096 + src.toNat * 16 + dst.toNat := by
  simp only [encodeR, append_toNat, BitVec.toNat_ofNat]
  omega

theorem encodeJ_toNat (t : BitVec 2) (g : JumpSign) (n : BitVec 9) :
    (encodeJ t g n).toNat = 4 * 4096 + t.toNat * 1024 + (bitOfSign g).toNat * 512 + n.toNat := by
  simp only [encodeJ, append_toNat, BitVec.toNat_ofNat]
  omega

/-! ### The formats read back -/

theorem decode_encodeA (mode : BitVec 12) : decode (encodeA mode) = decodeAlu mode := by
  have hw := encodeA_toNat mode
  rw [decode_of_opcode (k := 0) (by omega)]
  exact congrArg decodeAlu (bits_eq (by omega))

/-- Formats M and I under any opcode: the reading depends on the opcode alone, and the fields are the encoded
ones. -/
theorem decode_encodeM (o reg : BitVec 4) (low : BitVec 8) :
    decode (encodeM o reg low) = decodeAs o.toNat (encodeM o reg low) ∧
      bits (encodeM o reg low) 8 4 = reg ∧ bits (encodeM o reg low) 0 8 = low := by
  have hw := encodeM_toNat o reg low
  exact ⟨decode_of_opcode (by omega), bits_eq (by omega), bits_eq (by omega)⟩

theorem decode_encodeR (src dst : BitVec 4) : decode (encodeR src dst) = .mov src dst := by
  have hw := encodeR_toNat src dst
  rw [decode_of_opcode (k := 3) (by omega)]
  exact congrArg₂ Instr.mov (bits_eq (by omega)) (bits_eq (by omega))

theorem decode_encodeJ (t : BitVec 2) (g : JumpSign) (n : BitVec 9) :
    decode (encodeJ t g n) = .jmp t g n := by
  have hw := encodeJ_toNat t g n
  have ht : bits (encodeJ t g n) 10 2 = t := bits_eq (by omega)
  have hg : bits (encodeJ t g n) 9 1 = bitOfSign g := bits_eq (by omega)
  have hn : bits (encodeJ t g n) 0 9 = n := bits_eq (by omega)
  rw [decode_of_opcode (k := 4) (by omega), decodeAs, ht, hg, hn, signOfBit_bitOfSign]

/-! ### The canonical word of a word's reading -/

theorem encodeA_mode {w : Word} (h : opcodeOf w = 0) : encodeA (bits w 0 12) = w := by
  have ho : w.toNat / 4096 = 0 := toNat_of_opcodeOf h
  apply BitVec.eq_of_toNat_eq
  rw [encodeA_toNat, bits_toNat]
  omega

theorem encodeJ_fields {w : Word} (h : opcodeOf w = 4) :
    encodeJ (bits w 10 2) (signOfBit (bits w 9 1)) (bits w 0 9) = w := by
  have ho : w.toNat / 4096 = 4 := toNat_of_opcodeOf h
  apply BitVec.eq_of_toNat_eq
  rw [encodeJ_toNat, bitOfSign_signOfBit, bits_toNat, bits_toNat, bits_toNat]
  omega

/-- A mask that keeps or clears whole fields acts field by field. -/
theorem encodeM_and (o o' reg reg' : BitVec 4) (low low' : BitVec 8) :
    encodeM o reg low &&& encodeM o' reg' low' = encodeM (o &&& o') (reg &&& reg') (low &&& low') :=
  BitVec.and_append.trans (congrArg (· ++ _) BitVec.and_append)

/-- `ir[11:8]` of a MOVE is cleared (R55). -/
theorem encodeR_fields {w : Word} (h : opcodeOf w = 3) :
    encodeR (bits w 4 4) (bits w 0 4) = w &&& 0xF0FF := by
  have ho : (opcodeOf w).toNat = 3 := congrArg BitVec.toNat h
  have hmask : (0xF0FF : Word) = encodeM (BitVec.allOnes 4) 0#4 (BitVec.allOnes 8) := by decide
  calc encodeR (bits w 4 4) (bits w 0 4)
      = encodeM (opcodeOf w) 0#4 (bits w 0 8) := by
        apply BitVec.eq_of_toNat_eq
        rw [encodeR_toNat, encodeM_toNat, ho, bits_toNat, bits_toNat, bits_toNat, BitVec.toNat_ofNat]
        omega
    _ = encodeM (opcodeOf w) (bits w 8 4) (bits w 0 8) &&& 0xF0FF := by
        rw [hmask, encodeM_and, BitVec.and_allOnes, BitVec.and_allOnes, BitVec.and_zero]
    _ = w &&& 0xF0FF := by rw [encodeM_fields]

/-- The low twelve bits of a word that only its opcode tells apart are cleared (R57, R59, R60). -/
theorem encodeBare_opcode (w : Word) : encodeBare (opcodeOf w) = w &&& 0xF000 := by
  have hmask : (0xF000 : Word) = encodeM (BitVec.allOnes 4) 0#4 0#8 := by decide
  have hbare (o : BitVec 4) : encodeBare o = encodeM o 0#4 0#8 := by revert o; decide
  calc encodeBare (opcodeOf w)
      = encodeM (opcodeOf w) (bits w 8 4) (bits w 0 8) &&& 0xF000 := by
        rw [hmask, encodeM_and, BitVec.and_allOnes, BitVec.and_zero, BitVec.and_zero, hbare]
    _ = w &&& 0xF000 := by rw [encodeM_fields]

theorem canonicalWord_of_bare {w : Word} (h : 6 ≤ (opcodeOf w).toNat) :
    canonicalWord w = encodeBare (opcodeOf w) := by
  have h3 : opcodeOf w ≠ 3 := fun e => by simp [e] at h
  rw [canonicalWord, significantMask, if_neg h3, if_neg (Nat.not_lt.2 h), encodeBare_opcode]

theorem canonicalWord_of_lt {w : Word} (h3 : opcodeOf w ≠ 3) (h : (opcodeOf w).toNat < 6) :
    canonicalWord w = w := by
  rw [canonicalWord, significantMask, if_neg h3, if_pos h]
  exact BitVec.and_allOnes

theorem canonicalWord_of_mov {w : Word} (h : opcodeOf w = 3) : canonicalWord w = w &&& 0xF0FF := by
  rw [canonicalWord, significantMask, if_pos h]

/-- A word of opcode 6 to 15 is read by its opcode alone (R57, R59, R60). -/
theorem encode_decodeAs_bare {o : BitVec 4} (h : 6 ≤ o.toNat) (w : Word) :
    (decodeAs o.toNat w).wellFormed = true ∧ encode (decodeAs o.toNat w) = encodeBare o := by
  have ho : o = 6 ∨ o = 7 ∨ o = 8 ∨ o = 9 ∨ o = 10 ∨ o = 11 ∨ o = 12 ∨ o = 13 ∨ o = 14 ∨ o = 15 := by
    bv_omega
  rcases ho with rfl | rfl | rfl | rfl | rfl | rfl | rfl | rfl | rfl | rfl <;> exact ⟨rfl, rfl⟩

end Sys2Proof

namespace Sys2Proof.Machine

open Laws.EncodesIntoRow (modeIn_bounds)

/-! ### The rows of opcode 0 -/

theorem encode_aluRow {i : Instr} (hi : IsAluRow i = true) : encode i = encodeA (aluModeOf i) := by
  cases i with
  | ld | st | mov | jmp | li | halt | illegalOp7 | illegalOp8 | illegalOp9 | illegalOp10 | illegalOp11
  | illegalOp12 | illegalOp13 | illegalOp14 | illegalOp15 => cases hi
  | _ => rfl

/-- A well-formed row of opcode 0 is the reading of the mode it spells (R52, R61). -/
theorem decodeAlu_aluModeOf {i : Instr} (hi : IsAluRow i = true) (h : i.wellFormed = true) :
    decodeAlu (aluModeOf i) = i := by
  cases i with
  | ld | st | mov | jmp | li | halt | illegalOp7 | illegalOp8 | illegalOp9 | illegalOp10 | illegalOp11
  | illegalOp12 | illegalOp13 | illegalOp14 | illegalOp15 => cases hi
  | shl | shr | and | not | xor | or | add | sub | cmp | inc | dec | illegalAluMode000B => rfl
  | _ =>
    -- the row's range rules out the modes with a row of their own and picks one branch of the rest
    obtain ⟨hlo, hhi⟩ := modeIn_bounds h
    simp only [aluModeOf, decodeAlu]
    split <;> grind

/-- Every mode is read as a well-formed row of opcode 0 that spells it (R61). -/
theorem decodeAlu_spec (mode : BitVec 12) :
    IsAluRow (decodeAlu mode) = true ∧ (decodeAlu mode).wellFormed = true ∧
      aluModeOf (decodeAlu mode) = mode := by
  have hlt := mode.isLt
  unfold decodeAlu
  split
  case h_13 =>
    have h12 : 12 ≤ mode.toNat := by grind
    split_ifs
    all_goals
      refine ⟨rfl, ?_, rfl⟩
      simp only [Instr.wellFormed, modeIn, Bool.and_eq_true, decide_eq_true_eq]
      omega
  all_goals
    next hm => exact ⟨rfl, rfl, BitVec.eq_of_toNat_eq hm.symm⟩

/-! ### The illegal opcodes -/

/-- R59, R60: a word of opcode 7 to 15 raises `InvalidOpcode` with its opcode. -/
theorem exec_decode_illegalOpcode (s : State) {o : BitVec 4} (h : 7 ≤ o.toNat) (low : BitVec 12) :
    exec (decode (o ++ low)) s = .next (s.raise (.invalidOpcode o)) := by
  have ho : o = 7 ∨ o = 8 ∨ o = 9 ∨ o = 10 ∨ o = 11 ∨ o = 12 ∨ o = 13 ∨ o = 14 ∨ o = 15 := by bv_omega
  rw [decode, opcodeOf_append]
  rcases ho with rfl | rfl | rfl | rfl | rfl | rfl | rfl | rfl | rfl <;> rfl

/-! ### The obligations -/

/-- Settles O8: by the format of each instruction; the rows of opcode 0 are one case. -/
theorem decodeOfEncodeIsTheInstruction : Obligations.DecodeOfEncodeIsTheInstruction := by
  intro i h
  cases i with
  | ld reg addr =>
    obtain ⟨hop, hreg, haddr⟩ := decode_encodeM 1 reg addr
    exact hop.trans (congrArg₂ Instr.ld hreg haddr)
  | st reg addr =>
    obtain ⟨hop, hreg, haddr⟩ := decode_encodeM 2 reg addr
    exact hop.trans (congrArg₂ Instr.st hreg haddr)
  | li reg value =>
    obtain ⟨hop, hreg, hvalue⟩ := decode_encodeM 5 reg value
    exact hop.trans (congrArg₂ Instr.li hreg hvalue)
  | mov src dst => exact decode_encodeR src dst
  | jmp t g n => exact decode_encodeJ t g n
  | halt | illegalOp7 | illegalOp8 | illegalOp9 | illegalOp10 | illegalOp11 | illegalOp12 | illegalOp13
  | illegalOp14 | illegalOp15 => rfl
  | _ => rw [encode_aluRow rfl, decode_encodeA, decodeAlu_aluModeOf rfl h]

/-- Settles O9: by the opcode; the fields a word is read into make up its significant bits. -/
theorem encodeOfDecodeIsTheCanonicalWord : Obligations.EncodeOfDecodeIsTheCanonicalWord := by
  intro w
  by_cases hbare : 6 ≤ (opcodeOf w).toNat
  · rw [canonicalWord_of_bare hbare]
    exact encode_decodeAs_bare hbare w
  · have ho : opcodeOf w = 0 ∨ opcodeOf w = 1 ∨ opcodeOf w = 2 ∨ opcodeOf w = 3 ∨ opcodeOf w = 4 ∨
        opcodeOf w = 5 := by bv_omega
    have hM := encodeM_fields w
    have hcanon : opcodeOf w ≠ 3 → canonicalWord w = w := fun h3 => canonicalWord_of_lt h3 (by omega)
    rcases ho with h | h | h | h | h | h <;> rw [decode, h] <;> rw [h] at hM hcanon
    · obtain ⟨hrow, hwf, hmode⟩ := decodeAlu_spec (bits w 0 12)
      refine ⟨hwf, ?_⟩
      rw [hcanon (by decide)]
      exact (encode_aluRow hrow).trans ((congrArg encodeA hmode).trans (encodeA_mode h))
    · exact ⟨rfl, hM.trans (hcanon (by decide)).symm⟩
    · exact ⟨rfl, hM.trans (hcanon (by decide)).symm⟩
    · exact ⟨rfl, (encodeR_fields h).trans (canonicalWord_of_mov h).symm⟩
    · exact ⟨rfl, (encodeJ_fields h).trans (hcanon (by decide)).symm⟩
    · exact ⟨rfl, hM.trans (hcanon (by decide)).symm⟩

/-- The ignored bits are ignored (R63). -/
theorem decode_canonicalWord (w : Word) : decode (canonicalWord w) = decode w := by
  obtain ⟨hwf, henc⟩ := encodeOfDecodeIsTheCanonicalWord w
  rw [← henc, decodeOfEncodeIsTheInstruction _ hwf]

/-- Settles O10: the canonical word is the encoding of the reading, and is itself read alike. -/
theorem onlyTheIgnoredBitsAreIgnored : Obligations.OnlyTheIgnoredBitsAreIgnored := by
  intro v w
  constructor
  · intro h
    rw [← (encodeOfDecodeIsTheCanonicalWord v).2, h, (encodeOfDecodeIsTheCanonicalWord w).2]
  · intro h
    rw [← decode_canonicalWord v, h, decode_canonicalWord w]

/-- Settles O17: a held core, a failed fetch and an executed instruction each answer a state. -/
theorem everyStepAnswersANextState : Obligations.EveryStepAnswersANextState := by
  intro s
  by_cases hr : s.status = .running
  · rcases Nat.lt_or_ge s.pc.toNat 64 with hp | hp
    · rw [step_running hr hp]
      exact exec_answers _ _
    · exact ⟨_, step_fetch_fault hr hp⟩
  · exact ⟨s, step_stopped hr⟩

/-- Settles O56: each of the five opcodes is 7 or above. -/
theorem unassignedOpcodesFault : Obligations.UnassignedOpcodesFault := by
  refine fun s => ⟨fun o low ho => exec_decode_illegalOpcode s ?_ low, rfl, rfl, rfl, rfl, rfl⟩
  rcases ho with rfl | ho
  · decide
  · omega

/-- Settles O57, by the same rule of the illegal opcodes. -/
theorem opcodesEightToElevenFault : Obligations.OpcodesEightToElevenFault :=
  fun s => ⟨fun _ low h8 _ => exec_decode_illegalOpcode s (by omega) low, rfl, rfl, rfl, rfl⟩

/-- Settles O12: each format as a number, at the opcode of its row. -/
theorem encodingsAreTheTablesNumbers : Obligations.EncodingsAreTheTablesNumbers :=
  ⟨rfl, encodeM_toNat 1, encodeM_toNat 2, encodeR_toNat, fun t => encodeJ_toNat t .forward,
    fun t => encodeJ_toNat t .backward, encodeM_toNat 5, rfl⟩

end Sys2Proof.Machine
end

section
/-! The execution cycle's rules (40_execution_cycle.md): what ends a run, where `pc` goes, what a step writes. -/

namespace Sys2Proof.Machine

open Laws.EncodesIntoRow (modeIn_bounds)

/-! ### What the ordered checks name (60_exceptions.md R126) -/

/-- An instruction begun in `s` answers as its checks say: the fault they name is taken, and where they name none
it completes with status and record as they were. -/
def AnswersChecks (s : State) (named : Option FaultRecord) (o : Host.Outcome State Fault Refusal) : Prop :=
  (∀ f, named = some f → o = .next (s.raise f)) ∧
    (named = none → ∃ t, o = .next t ∧ t.status = s.status ∧ t.fault = s.fault)

section Answers

variable {s t : State} {o : Host.Outcome State Fault Refusal}

theorem AnswersChecks.of_raise {f : FaultRecord} (h : o = .next (s.raise f)) : AnswersChecks s (some f) o :=
  ⟨fun _ hg => Option.some.inj hg ▸ h, nofun⟩

theorem AnswersChecks.of_completes (h : o = .next t) (hs : t.status = s.status) (hf : t.fault = s.fault) :
    AnswersChecks s none o :=
  ⟨nofun, fun _ => ⟨t, h, hs, hf⟩⟩

end Answers

/-- A wide shift raises under `SHIFT_GE16 = fault` only (41_alu.md R82, R83). -/
theorem wideShift_answers {c : Config} (hc : c.shiftGe16 ≠ .fault) (shifted : Nat → Word) (b : Word) :
    ∃ v, wideShift c shifted b = .ok v := by
  unfold wideShift
  cases h : c.shiftGe16 with
  | zero | mod16 => exact ⟨_, rfl⟩
  | fault => exact absurd h hc

theorem wideShift_fault {c : Config} (hc : c.shiftGe16 = .fault) (shifted : Nat → Word) (b : Word) :
    wideShift c shifted b = .error (.unspecifiedShift b) := by
  simp [wideShift, hc]

/-- The two shift modes raise for an amount of 16 or more under `SHIFT_GE16 = fault` (R129). -/
theorem alu_unspecifiedShift {c : Config} (hc : c.shiftGe16 = .fault) {mode : BitVec 12}
    (hm : mode.toNat ≤ 1) (a : Word) {b : Word} (hb : 16 ≤ b.toNat) :
    alu c mode a b = .error (.unspecifiedShift b) := by
  have hmode : mode = 0 ∨ mode = 1 := by bv_omega
  rcases hmode with rfl | rfl
  · exact (aluShl_wide hb).trans (wideShift_fault hc _ b)
  · exact (aluShr_wide hb).trans (wideShift_fault hc _ b)

/-- Every other use of the modes 0 to 10 answers a word (41_alu.md R80). -/
theorem alu_answers {c : Config} {mode : BitVec 12} (hm : mode.toNat < 11) (a : Word) {b : Word}
    (h : ¬ (mode.toNat ≤ 1 ∧ 16 ≤ b.toNat ∧ c.shiftGe16 = .fault)) : ∃ v, alu c mode a b = .ok v := by
  have hmode : mode = 0 ∨ mode = 1 ∨ mode = 2 ∨ mode = 3 ∨ mode = 4 ∨ mode = 5 ∨ mode = 6 ∨ mode = 7 ∨
      mode = 8 ∨ mode = 9 ∨ mode = 10 := by bv_omega
  rcases Nat.lt_or_ge b.toNat 16 with hb | hb
  · rcases hmode with rfl | rfl | rfl | rfl | rfl | rfl | rfl | rfl | rfl | rfl | rfl
    · exact ⟨_, aluShl_below hb⟩
    · exact ⟨_, aluShr_below hb⟩
    all_goals exact ⟨_, rfl⟩
  · have hc : mode.toNat ≤ 1 → c.shiftGe16 ≠ .fault := fun hm1 hc => h ⟨hm1, hb, hc⟩
    rcases hmode with rfl | rfl | rfl | rfl | rfl | rfl | rfl | rfl | rfl | rfl | rfl
    · exact (wideShift_answers (hc (by decide)) _ b).imp fun _ => (aluShl_wide hb).trans
    · exact (wideShift_answers (hc (by decide)) _ b).imp fun _ => (aluShr_wide hb).trans
    all_goals exact ⟨_, rfl⟩

theorem aluInstr_answersChecks (mode : BitVec 12) (s : State) :
    AnswersChecks s
      (if 11 ≤ mode.toNat then some (.invalidAluMode mode)
        else if mode.toNat ≤ 1 ∧ 16 ≤ (s.getReg 2).toNat ∧ s.config.shiftGe16 = .fault then
          some (.unspecifiedShift (s.getReg 2))
        else none)
      (aluInstr mode s) := by
  split_ifs with hm hshift
  · exact .of_raise (aluInstr_of_error (alu_invalid _ hm _ _))
  · obtain ⟨hm1, hb, hc⟩ := hshift
    exact .of_raise (aluInstr_of_error (alu_unspecifiedShift hc hm1 _ hb))
  · obtain ⟨v, hv⟩ := alu_answers (Nat.not_le.1 hm) (s.getReg 1) hshift
    exact .of_completes (aluInstr_of_ok hv) rfl rfl

theorem exec_ld_answersChecks (r : BitVec 4) (a : BitVec 8) (s : State) :
    AnswersChecks s
      (if 16 ≤ a.toNat then some (.outOfRange .data a.toNat)
        else if 8 ≤ r.toNat then some (.outOfRange .reg r.toNat)
        else none)
      (exec (.ld r a) s) := by
  split_ifs with ha hr
  · exact .of_raise (by simp [exec, execLd, effectiveAddr, memRead_error s ha])
  · exact .of_raise (by simp [exec, execLd, effectiveAddr, memRead_ok s (Nat.not_le.1 ha), regCheck_error hr])
  · exact .of_completes (exec_ld_slot s (j := ⟨_, Nat.not_le.1 hr⟩) rfl (Nat.not_le.1 ha)) rfl rfl

theorem exec_st_answersChecks (r : BitVec 4) (a : BitVec 8) (s : State) :
    AnswersChecks s
      (if 8 ≤ r.toNat then some (.outOfRange .reg r.toNat)
        else if 16 ≤ a.toNat then some (.outOfRange .data a.toNat)
        else none)
      (exec (.st r a) s) := by
  split_ifs with hr ha
  · exact .of_raise (by simp [exec, execSt, regCheck_error hr])
  · exact .of_raise (by simp [exec, execSt, effectiveAddr, regCheck_ok (Nat.not_le.1 hr), memWrite_error s ha])
  · exact .of_completes (exec_st_slot s (i := ⟨_, Nat.not_le.1 hr⟩) rfl (Nat.not_le.1 ha)) rfl rfl

theorem exec_mov_literal {s : State} (hm : s.config.moveSemantics = .literal) (src dst : BitVec 4) :
    exec (.mov src dst) s = .next s.advance := by
  simp [exec, execMov, hm, moveLiteral]

theorem exec_mov_answersChecks (src dst : BitVec 4) (s : State) :
    AnswersChecks s
      (if s.config.moveSemantics = .literal then none
        else if 8 ≤ src.toNat then some (.outOfRange .reg src.toNat)
        else if 8 ≤ dst.toNat then some (.outOfRange .reg dst.toNat)
        else none)
      (exec (.mov src dst) s) := by
  cases hm : s.config.moveSemantics with
  | literal => exact .of_completes (exec_mov_literal hm src dst) rfl rfl
  | fields =>
    simp only [reduceCtorEq, if_false]
    split_ifs with hs hd
    · exact .of_raise (by simp [exec, execMov, hm, moveFields, regCheck_error hs])
    · exact .of_raise (by
        simp [exec, execMov, hm, moveFields, regCheck_ok (Nat.not_le.1 hs), regCheck_error hd])
    · exact .of_completes
        (exec_mov_slots hm (i := ⟨_, Nat.not_le.1 hs⟩) (j := ⟨_, Nat.not_le.1 hd⟩) rfl rfl) rfl rfl

theorem exec_li_answersChecks (r : BitVec 4) (v : BitVec 8) (s : State) :
    AnswersChecks s (if 8 ≤ r.toNat then some (.outOfRange .reg r.toNat) else none) (exec (.li r v) s) := by
  split_ifs with hr
  · exact .of_raise (by simp [exec, execLi, regCheck_error hr])
  · exact .of_completes (exec_li_slot s (j := ⟨_, Nat.not_le.1 hr⟩) rfl v) rfl rfl

/-- The mode of an opcode-0 word goes to the ALU as it stands (41_alu.md R81). -/
theorem exec_decodeAlu (mode : BitVec 12) (s : State) : exec (decodeAlu mode) s = aluInstr mode s := by
  obtain ⟨hrow, -, hmode⟩ := decodeAlu_spec mode
  rw [exec_aluRow hrow, hmode]

theorem exec_decode_halt {w : Word} (h : w.toNat / 4096 = 6) (s : State) :
    exec (decode w) s = .next s.halt := by
  rw [decode_of_opcode h]
  rfl

/-- The checks name `InvalidOpcode` for the opcodes 7 to 15 (R123). -/
theorem faultOfWord_illegalOpcode (c : Config) {w : Word} (h : 7 ≤ w.toNat / 4096) (b : Word) :
    faultOfWord c w b = some (.invalidOpcode (opcodeOf w)) := by
  have hop : BitVec.ofNat 4 (w.toNat / 4096) = opcodeOf w := by
    rw [← opcodeOf_toNat, BitVec.ofNat_toNat, BitVec.setWidth_eq]
  unfold faultOfWord
  split
  case h_8 => rw [hop]
  all_goals omega

theorem exec_decode_illegal_answersChecks {w : Word} (h : 7 ≤ w.toNat / 4096) (s : State) :
    AnswersChecks s (faultOfWord s.config w (s.getReg 2)) (exec (decode w) s) := by
  rw [faultOfWord_illegalOpcode _ h]
  rw [← opcodeOf_toNat] at h
  obtain ⟨o, low, rfl⟩ := word_split w
  rw [opcodeOf_append] at h ⊢
  exact .of_raise (exec_decode_illegalOpcode s h low)

/-- Every word but a HALT answers as the checks on it as a number say. -/
theorem exec_decode_answersChecks {w : Word} (h6 : w.toNat / 4096 ≠ 6) (s : State) :
    AnswersChecks s (faultOfWord s.config w (s.getReg 2)) (exec (decode w) s) := by
  by_cases h7 : 7 ≤ w.toNat / 4096
  · exact exec_decode_illegal_answersChecks h7 s
  · have hmode : BitVec.ofNat 12 (w.toNat % 4096) = bits w 0 12 :=
      BitVec.eq_of_toNat_eq (by simp [bits_toNat])
    have hop : w.toNat / 4096 = 0 ∨ w.toNat / 4096 = 1 ∨ w.toNat / 4096 = 2 ∨ w.toNat / 4096 = 3 ∨
        w.toNat / 4096 = 4 ∨ w.toNat / 4096 = 5 := by omega
    rcases hop with h | h | h | h | h | h <;> rw [decode_of_opcode h] <;>
      simp only [faultOfWord, h, decodeAs]
    · simpa [bits_toNat, exec_decodeAlu, hmode] using aluInstr_answersChecks (bits w 0 12) s
    · simpa [bits_toNat] using exec_ld_answersChecks (bits w 8 4) (bits w 0 8) s
    · simpa [bits_toNat] using exec_st_answersChecks (bits w 8 4) (bits w 0 8) s
    · simpa [bits_toNat] using exec_mov_answersChecks (bits w 4 4) (bits w 0 4) s
    · exact .of_completes rfl rfl rfl
    · simpa [bits_toNat] using exec_li_answersChecks (bits w 8 4) (bits w 0 8) s

/-- A HALT raises nothing. -/
theorem faultOfWord_halt (c : Config) {w : Word} (h : w.toNat / 4096 = 6) (b : Word) :
    faultOfWord c w b = none := by
  simp only [faultOfWord, h]

/-! ### The step of a running core, by the checks -/

/-- The fault the ordered checks name for the next step of a running core: the fetch's (R71), else the one of the
word fetched. -/
def State.checkedFault (s : State) : Option FaultRecord :=
  if 64 ≤ s.pc.toNat then some (.outOfRange .prog s.pc.toNat)
  else faultOfWord s.config (s.progAt s.pc.toNat) (s.getReg 2)

/-- The next step of a running core fetches a word of opcode 6. -/
def State.AtHalt (s : State) : Prop := s.pc.toNat < 64 ∧ (s.progAt s.pc.toNat).toNat / 4096 = 6

section Step

variable {s t : State} (hr : s.status = .running)
include hr

theorem step_of_atHalt (h : s.AtHalt) : step s = .next (s.setIr (s.progAt s.pc.toNat)).halt := by
  obtain ⟨hp, h6⟩ := h
  rw [step_running hr hp, exec_decode_halt h6]

/-- A fault that the checks name is taken, with the fetched word, if any, in `ir` (R124). -/
theorem step_of_checkedFault {f : FaultRecord} (h : s.checkedFault = some f) :
    step s = .next
      ((s.setIr (if s.pc.toNat < 64 then s.progAt s.pc.toNat else s.ir)).raise f) := by
  unfold State.checkedFault at h
  split at h
  · next hp =>
    rw [if_neg (Nat.not_lt.2 hp), step_fetch_fault hr hp, Option.some.inj h]
    rfl
  · next hp =>
    have h6 : (s.progAt s.pc.toNat).toNat / 4096 ≠ 6 := fun h6 => by simp [faultOfWord_halt _ h6] at h
    rw [if_pos (Nat.not_le.1 hp), step_running hr (Nat.not_le.1 hp)]
    exact (exec_decode_answersChecks h6 (s.setIr (s.progAt s.pc.toNat))).1 f h

/-- Where the checks name nothing and the word is no HALT, the core runs on. -/
theorem step_of_no_checkedFault (h : s.checkedFault = none) (hh : ¬ s.AtHalt) :
    ∃ t, step s = .next t ∧ t.status = .running ∧ t.fault = s.fault := by
  unfold State.checkedFault at h
  split at h
  · cases h
  · next hp =>
    have hp := Nat.not_le.1 hp
    rw [step_running hr hp, ← hr]
    exact (exec_decode_answersChecks (fun h6 => hh ⟨hp, h6⟩) (s.setIr (s.progAt s.pc.toNat))).2 h

/-- A running core stops by a HALT or by the fault that the checks name, and in no other way (R75). -/
theorem step_stops_iff :
    (step s = .next t ∧ t.status ≠ .running) ↔
      (s.AtHalt ∧ t = (s.setIr (s.progAt s.pc.toNat)).halt) ∨
        ∃ f, s.checkedFault = some f ∧
          t = (s.setIr (if s.pc.toNat < 64 then s.progAt s.pc.toNat else s.ir)).raise f := by
  constructor
  · rintro ⟨hstep, hstop⟩
    by_cases hh : s.AtHalt
    · rw [step_of_atHalt hr hh, Host.Outcome.next.injEq] at hstep
      exact .inl ⟨hh, hstep.symm⟩
    · cases hf : s.checkedFault with
      | some f =>
        rw [step_of_checkedFault hr hf, Host.Outcome.next.injEq] at hstep
        exact .inr ⟨f, rfl, hstep.symm⟩
      | none =>
        obtain ⟨u, hu, hrun, -⟩ := step_of_no_checkedFault hr hf hh
        rw [hu, Host.Outcome.next.injEq] at hstep
        exact absurd (hstep ▸ hrun) hstop
  · rintro (⟨hh, rfl⟩ | ⟨f, hf, rfl⟩)
    · exact ⟨step_of_atHalt hr hh, nofun⟩
    · exact ⟨step_of_checkedFault hr hf, nofun⟩

/-- A run from a running core ends with the first step after which the core does not run (R148). -/
theorem endsIn_iff_last_step {n : Nat} :
    EndsIn n s t ↔
      ∃ k u, n = k + 1 ∧ StepsTo k s u ∧ u.status = .running ∧ step u = .next t ∧ t.status ≠ .running := by
  constructor
  · rintro ⟨hrun, hend, hbefore⟩
    have ht : t.status ≠ .running := by simpa [State.ended] using hend
    cases n with
    | zero =>
      cases hrun
      exact absurd hr ht
    | succ k =>
      obtain ⟨u, hu, hstep⟩ := hrun.last
      have hur : u.status = .running := by simpa [State.ended] using hbefore k u (Nat.lt_succ_self k) hu
      exact ⟨k, u, rfl, hu, hur, hstep, ht⟩
  · rintro ⟨k, u, rfl, hu, hur, hstep, ht⟩
    refine ⟨hu.snoc hstep, by simpa [State.ended] using ht, fun j v hj hv => ?_⟩
    have hv : v.status = .running := hu.running_before hur (Nat.le_of_lt_succ hj) hv
    simp [State.ended, hv]

end Step

/-- A core that does not run stays where it is for any number of steps (R78). -/
theorem StepsTo.of_stopped {s : State} (hs : s.status ≠ .running) (n : Nat) : StepsTo n s s := by
  induction n with
  | zero => exact .refl s
  | succ n ih => exact .cons (step_stopped hs) ih

/-- The word that a step fetched is the one it leaves in `ir` (R71). -/
theorem Effect.ir_fetched {s t : State} {w : Word} {i : Instr} (e : Effect (s.setIr w) i t) : t.ir = w :=
  e.keeps.1

/-! ### The program counter (R74) -/

/-- The program counter after an instruction that a running core executes: kept where the core stops, else one on,
from the adjusted value in a JUMP. -/
theorem Effect.pc_after {s t : State} {i : Instr} (e : Effect s i t) (hr : s.status = .running) :
    (t.status ≠ .running ∧ t.pc = s.pc) ∨
      (t.status = .running ∧ (∀ ty g n, i ≠ .jmp ty g n) ∧ t.pc = s.pc + 1) ∨
      (t.status = .running ∧
        ∃ ty g n, i = .jmp ty g n ∧ t.pc = jumpBase (s.getReg 4) s.pc ty g n + 1) := by
  cases e with
  | fault | halt => exact .inl ⟨nofun, rfl⟩
  | jmp ty g n => exact .inr (.inr ⟨hr, ty, g, n, rfl, rfl⟩)
  | alu _ _ hi => exact .inr (.inl ⟨hr, fun _ _ _ h => by simp [h, IsAluRow] at hi, rfl⟩)
  | ld | li | movFields | movLiteral | st => exact .inr (.inl ⟨hr, nofun, rfl⟩)

/-! ### The destination (R13) -/

/-- No instruction has a destination in the register file and in the data RAM. -/
theorem destinationOf_or_storedAddress_none (c : Config) (i : Instr) :
    destinationOf c i = none ∨ storedAddress i = none := by
  cases i with
  | st => exact .inl rfl
  | _ => exact .inr rfl

/-- A row of opcode 0 has the destination `x[3]` or a mode that raises (41_alu.md R81, R93). -/
theorem destinationOf_aluRow (c : Config) {i : Instr} (hi : IsAluRow i = true) (h : i.wellFormed = true) :
    destinationOf c i = some 3 ∨ 11 ≤ (aluModeOf i).toNat := by
  cases i with
  | ld | st | mov | jmp | li | halt | illegalOp7 | illegalOp8 | illegalOp9 | illegalOp10 | illegalOp11
  | illegalOp12 | illegalOp13 | illegalOp14 | illegalOp15 => cases hi
  | shl | shr | and | not | xor | or | add | sub | cmp | inc | dec => exact .inl rfl
  | illegalAluMode000B => exact .inr (by decide)
  | _ => exact .inr (Nat.le_trans (by decide) (modeIn_bounds h).1)

/-- A register that a well-formed instruction changes is its destination. -/
theorem destinationOf_of_getReg_ne {s t : State} {i : Instr} (h : i.wellFormed = true)
    (hexec : exec i s = .next t) {j : Fin 8} (hne : t.getReg j ≠ s.getReg j) :
    destinationOf s.config i = some j.val := by
  rcases (exec_effect hexec).register_written hne with
    ⟨hi, rfl⟩ | ⟨d, hd, ⟨a, rfl⟩ | ⟨v, rfl⟩ | ⟨hm, src, rfl⟩⟩
  · refine (destinationOf_aluRow s.config hi h).resolve_right fun hmode => hne ?_
    rw [exec_aluRow hi, aluInstr_of_error (alu_invalid _ hmode _ _), Host.Outcome.next.injEq] at hexec
    rw [← hexec, State.getReg_raise]
  · exact congrArg some hd
  · exact congrArg some hd
  · rw [destinationOf, if_pos hm, hd]

/-- A data cell that an instruction changes is the one it stores to. -/
theorem Effect.storedAddress_of_dataAt_ne {s t : State} {i : Instr} (e : Effect s i t)
    (hwf : Memory.wf dataBlank 16 s.dmem = true) {a : Nat} (hne : t.dataAt a ≠ s.dataAt a) :
    storedAddress i = some a := by
  obtain ⟨-, r, b, j, rfl, rfl, -⟩ := e.cell_written hwf hne
  rfl

/-- An instruction that leaves a running core faulted has written nothing (60_exceptions.md R124). -/
theorem Effect.keeps_of_faulted {s t : State} {i : Instr} (e : Effect s i t) (hr : s.status = .running)
    (ht : t.status = .faulted) : t.regs = s.regs ∧ t.dmem = s.dmem := by
  cases e with
  | fault => exact ⟨rfl, rfl⟩
  | halt => cases ht
  | alu | ld | li | movFields | movLiteral | st | jmp => cases hr.symm.trans ht

/-! ### The obligations -/

/-- Settles O16: a stopped core steps to itself, and its runs have one end. -/
theorem stoppedCoreIsHeld : Obligations.StoppedCoreIsHeld :=
  fun _ hs n => ⟨.of_stopped hs n, fun _ hrun => hrun.eq_of_stopped hs⟩

/-- Settles O18: the last step of the run is one that stops the core. -/
theorem aRunEndsByHaltOrFault : Obligations.ARunEndsByHaltOrFault := by
  intro s t n hr
  rw [endsIn_iff_last_step hr]
  refine exists_congr fun k => exists_congr fun u => and_congr_right fun _ => and_congr_right fun _ =>
    and_congr_right fun hur => (step_stops_iff hur).trans ?_
  exact or_congr_left and_assoc

/-- Settles O20: by the three ways `pc` can go, and by whether the JUMP is taken. -/
theorem programCounterUpdate : Obligations.ProgramCounterUpdate := by
  intro s t hr hstep
  rcases step_cases hstep with ⟨hs, -⟩ | ⟨-, -, rfl⟩ | ⟨-, -, -, e⟩
  · exact absurd hr hs
  · exact ⟨fun _ => rfl, nofun, nofun, nofun, nofun⟩
  · rw [← e.ir_fetched] at e
    rcases e.pc_after hr with ⟨hstop, hpc⟩ | ⟨hrun, hjmp, hpc⟩ | ⟨hrun, ty, g, n, hi, hpc⟩
    · exact ⟨fun _ => hpc, fun h => absurd h hstop, fun h => absurd h hstop, fun _ h => absurd h hstop,
        fun _ h => absurd h hstop⟩
    · exact ⟨absurd hrun, fun _ _ => hpc, fun _ _ => hpc, fun _ _ h => absurd h (hjmp _ _ _),
        fun _ _ h => absurd h (hjmp _ _ _)⟩
    · simp only [State.getReg_setIr, State.setIr_pc] at hpc
      have hkept : ¬ (ty = 0 ∧ (s.getReg 4).getLsbD 0 = true) → t.pc = s.pc + 1 := fun h => by
        rw [hpc, jumpBase_not_taken h]
      have htaken : ∀ g' n', decode t.ir = .jmp 0 g' n' → (s.getReg 4).getLsbD 0 = true →
          t.pc = jumpAdjust s.pc g' n' + 1 := fun g' n' h hbit => by
        obtain ⟨rfl, rfl, rfl⟩ := Instr.jmp.inj (hi.symm.trans h)
        rw [hpc, jumpBase_taken ⟨rfl, hbit⟩]
      refine ⟨absurd hrun, fun _ h => hkept ?_, fun _ h => hkept ?_, fun n' _ h hbit => ?_,
        fun n' _ h hbit => ?_⟩
      · rintro ⟨rfl, -⟩
        exact h g n hi
      · rintro ⟨-, hbit⟩
        exact Bool.false_ne_true (h.symm.trans hbit)
      · rw [htaken _ _ h hbit, jumpAdjust_forward_succ]
      · rw [htaken _ _ h hbit, jumpAdjust_backward_succ]

/-- Settles O21: a held core and a failed fetch write nothing, an instruction its destination. -/
theorem oneWritePerStep : Obligations.OneWritePerStep := by
  intro s t hwf hstep
  have hone := destinationOf_or_storedAddress_none s.config (decode t.ir)
  rcases step_cases hstep with ⟨-, rfl⟩ | ⟨-, -, rfl⟩ | ⟨hr, -, hexec, e⟩
  · exact ⟨fun _ _ => rfl, fun _ _ => rfl, hone, fun _ => ⟨rfl, fun _ => rfl⟩⟩
  · exact ⟨fun _ _ => rfl, fun _ _ => rfl, hone, fun _ => ⟨rfl, fun _ => rfl⟩⟩
  · rw [← e.ir_fetched] at hexec e
    refine ⟨fun j hj => ?_, fun a ha => ?_, hone, fun ht => ?_⟩
    · by_contra hne
      exact hj (destinationOf_of_getReg_ne (encodeOfDecodeIsTheCanonicalWord t.ir).1 hexec hne)
    · by_contra hne
      exact ha (e.storedAddress_of_dataAt_ne hwf hne)
    · obtain ⟨hregs, hdmem⟩ := e.keeps_of_faulted hr ht
      exact ⟨hregs, fun a => congrArg (Memory.read dataBlank · a) hdmem⟩

/-- Settles O14, by the rule of a running step that fetches. -/
theorem stepRunsDecodedInstruction : Obligations.StepRunsDecodedInstruction := by
  rintro _ s hr hp rfl
  exact step_running hr hp

/-- Settles O15, by the two answers of the fetch. -/
theorem fetchPhase : Obligations.FetchPhase :=
  fun _ hr => ⟨step_running hr, step_fetch_fault hr⟩

end Sys2Proof.Machine
end

section
/-! The ALU's rules (41_alu.md): what a row of opcode 0 does by what its ALU answers, the results of the eleven
modes as numbers and bits, the modes that raise. -/

namespace Sys2Proof.Machine

/-! ### The rows of opcode 0 (R81) -/

/-- A row of opcode 0 whose ALU answers a word writes it to `x[3]`, advances `pc` and changes nothing else. -/
theorem exec_aluRow_of_ok {i : Instr} (hi : IsAluRow i = true) {s : State} {v : Word}
    (h : alu s.config (aluModeOf i) (s.getReg 1) (s.getReg 2) = .ok v) :
    exec i s = .next { s with regs := s.regs.set 3 v, pc := s.pc + 1 } :=
  (exec_aluRow hi s).trans (aluInstr_of_ok h)

/-- A row of opcode 0 whose ALU raises takes that fault. -/
theorem exec_aluRow_of_error {i : Instr} (hi : IsAluRow i = true) {s : State} {f : FaultRecord}
    (h : alu s.config (aluModeOf i) (s.getReg 1) (s.getReg 2) = .error f) :
    exec i s = .next { s with status := .faulted, fault := some f } :=
  (exec_aluRow hi s).trans (aluInstr_of_error h)

/-- A word of opcode 0 is the ALU instruction at its low twelve bits. -/
theorem exec_decode_opcodeZero (mode : BitVec 12) (s : State) :
    exec (decode (0#4 ++ mode)) s = aluInstr mode s :=
  (congrArg (exec · s) (decode_encodeA mode)).trans (exec_decodeAlu mode s)

/-! ### The arithmetic results (R88, R89, R91, R92) -/

theorem aluAdd_eq_ofNat (a b : Word) : aluAdd a b = BitVec.ofNat 16 ((a.toNat + b.toNat) % 65536) := by
  apply BitVec.eq_of_toNat_eq
  simp [aluAdd, BitVec.toNat_add]

theorem aluSub_eq_ofInt (a b : Word) : aluSub a b = BitVec.ofInt 16 ((a.toNat - b.toNat : Int) % 65536) := by
  apply BitVec.eq_of_toNat_eq
  rw [aluSub, BitVec.toNat_sub, BitVec.toNat_ofInt]
  omega

/-- INC adds 1 and DEC subtracts it. -/
theorem aluInc_eq_ofNat (a : Word) : aluInc a = BitVec.ofNat 16 ((a.toNat + 1) % 65536) := aluAdd_eq_ofNat a 1

theorem aluDec_eq_ofInt (a : Word) : aluDec a = BitVec.ofInt 16 ((a.toNat - 1 : Int) % 65536) :=
  aluSub_eq_ofInt a 1

/-! ### The shifts (R82, R83) -/

theorem shiftLeft_toNat (a : Word) (n : Nat) : (a <<< n).toNat = a.toNat * 2 ^ n % 65536 := by
  rw [BitVec.toNat_shiftLeft, Nat.shiftLeft_eq]

theorem shiftRight_toNat (a : Word) (n : Nat) : (a >>> n).toNat = a.toNat / 2 ^ n := by
  rw [BitVec.toNat_ushiftRight, Nat.shiftRight_eq_div_pow]

theorem wideShift_zero {c : Config} (hc : c.shiftGe16 = .zero) (shifted : Nat → Word) (b : Word) :
    wideShift c shifted b = .ok 0 := by
  simp [wideShift, hc]

theorem wideShift_mod16 {c : Config} (hc : c.shiftGe16 = .mod16) (shifted : Nat → Word) (b : Word) :
    wideShift c shifted b = .ok (shifted (b.toNat % 16)) := by
  simp [wideShift, hc]

/-! ### The compare nibble (R90) -/

theorem compareNibble_of_gt {a b : Word} (h : b.toNat < a.toNat) : compareNibble a b = 9 := by
  have hne : a ≠ b := fun e => absurd (e ▸ h) (Nat.lt_irrefl _)
  simp [compareNibble, h, Nat.lt_asymm h, hne]

theorem compareNibble_of_lt {a b : Word} (h : a.toNat < b.toNat) : compareNibble a b = 5 := by
  have hne : a ≠ b := fun e => absurd (e ▸ h) (Nat.lt_irrefl _)
  simp [compareNibble, h, Nat.lt_asymm h, hne]

theorem compareNibble_self (a : Word) : compareNibble a a = 3 := by
  simp [compareNibble]

theorem compareNibble_cases (a b : Word) :
    compareNibble a b = 9 ∨ compareNibble a b = 5 ∨ compareNibble a b = 3 := by
  rcases Nat.lt_trichotomy a.toNat b.toNat with h | h | h
  · exact .inr (.inl (compareNibble_of_lt h))
  · obtain rfl := BitVec.eq_of_toNat_eq h
    exact .inr (.inr (compareNibble_self a))
  · exact .inl (compareNibble_of_gt h)

/-- Bit 0 is constant, and the bits from 4 up are zero. -/
theorem compareNibble_bits (a b : Word) :
    (compareNibble a b).getLsbD 0 = true ∧ ∀ i, 4 ≤ i → (compareNibble a b).getLsbD i = false := by
  obtain ⟨hbit, hlt⟩ : (compareNibble a b).getLsbD 0 = true ∧ (compareNibble a b).toNat < 2 ^ 4 := by
    rcases compareNibble_cases a b with h | h | h <;> rw [h] <;> decide
  exact ⟨hbit, fun i hi => Nat.testBit_lt_two_pow (hlt.trans_le (Nat.pow_le_pow_right (by decide) hi))⟩

/-! ### The obligations -/

/-- Settles O37: each mode answers the word of its operation, whose bits are the operation's on the bits. -/
theorem bitwiseInstructions : Obligations.BitwiseInstructions := by
  intro s
  refine ⟨⟨_, exec_aluRow_of_ok rfl rfl, fun i _ => ?_⟩, ⟨_, exec_aluRow_of_ok rfl rfl, ?_, fun i hi => ?_⟩,
    ⟨_, exec_aluRow_of_ok rfl rfl, fun i _ => ?_⟩, ⟨_, exec_aluRow_of_ok rfl rfl, fun i _ => ?_⟩⟩
  · rw [aluAnd, BitVec.getLsbD_and, Bool.and_eq_true]
  · exact BitVec.toNat_not
  · simp [aluNot, hi]
  · simp [aluXor]
  · rw [aluOr, BitVec.getLsbD_or, Bool.or_eq_true]

/-- Settles O38: below the width the amount is exact. -/
theorem shiftsBelowTheWidth : Obligations.ShiftsBelowTheWidth := by
  intro s hb
  have hb : (s.getReg 2).toNat < 16 := Nat.lt_succ_of_le hb
  exact ⟨⟨_, exec_aluRow_of_ok rfl (aluShl_below hb), shiftLeft_toNat _ _⟩,
    ⟨_, exec_aluRow_of_ok rfl (aluShr_below hb), shiftRight_toNat _ _⟩⟩

/-- Settles O39: at the width and above, by the three values of the parameter. -/
theorem shiftsAtOrAboveTheWidth : Obligations.ShiftsAtOrAboveTheWidth := by
  intro s hb
  refine ⟨fun hc => ⟨?_, ?_⟩, fun hc => ⟨⟨_, ?_, shiftLeft_toNat _ _⟩, ⟨_, ?_, shiftRight_toNat _ _⟩⟩,
    fun hc => ⟨?_, ?_⟩⟩
  · exact exec_aluRow_of_ok rfl ((aluShl_wide hb).trans (wideShift_zero hc _ _))
  · exact exec_aluRow_of_ok rfl ((aluShr_wide hb).trans (wideShift_zero hc _ _))
  · exact exec_aluRow_of_ok rfl ((aluShl_wide hb).trans (wideShift_mod16 hc _ _))
  · exact exec_aluRow_of_ok rfl ((aluShr_wide hb).trans (wideShift_mod16 hc _ _))
  · exact exec_aluRow_of_error rfl (alu_unspecifiedShift hc (by decide) _ hb)
  · exact exec_aluRow_of_error rfl (alu_unspecifiedShift hc (by decide) _ hb)

/-- Settles O40: the nibble is 9, 5 or 3. -/
theorem compareInstruction : Obligations.CompareInstruction := by
  intro s
  refine ⟨_, exec_aluRow_of_ok rfl rfl, compareNibble_of_gt, compareNibble_of_lt, fun h => ?_,
    compareNibble_bits _ _⟩
  rw [aluCmp, h, compareNibble_self]

/-- Settles O41: each of the words and rows is the ALU instruction at its mode, which raises. -/
theorem invalidAluModesFault : Obligations.InvalidAluModesFault := by
  intro s
  refine ⟨exec_aluRow_of_error rfl (alu_invalid _ (by decide) _ _), fun mode hm i hi => ?_⟩
  have halu : exec i s = aluInstr mode s := by
    simp only [List.mem_cons, List.not_mem_nil, or_false] at hi
    rcases hi with rfl | rfl | rfl | rfl | rfl | rfl | rfl | rfl | rfl | rfl
    · exact exec_decode_opcodeZero mode s
    all_goals rfl
  exact halu.trans (aluInstr_of_error (alu_invalid _ hm _ _))

/-- Settles O42: a mode of 11 or more raises, and so does a wide shift under `fault`; every other use answers. -/
theorem aluAnswersExactlyTheElevenModes : Obligations.AluAnswersExactlyTheElevenModes := by
  intro c mode a b
  refine ⟨⟨?_, fun ⟨hm, h⟩ => alu_answers hm a fun ⟨h1, hwide⟩ => h ⟨Nat.lt_succ_of_le h1, hwide⟩⟩,
    fun hm => alu_invalid c hm a b⟩
  rintro ⟨v, hv⟩
  refine ⟨Nat.not_le.1 fun hm => ?_, fun ⟨h2, hb, hc⟩ => ?_⟩
  · cases (alu_invalid c hm a b).symm.trans hv
  · cases (alu_unspecifiedShift hc (Nat.le_of_lt_succ h2) a hb).symm.trans hv

/-- Settles O43: by the two answers of the ALU. -/
theorem opcodeZeroAppliesTheAlu : Obligations.OpcodeZeroAppliesTheAlu := fun mode s =>
  ⟨fun _ h => (exec_decode_opcodeZero mode s).trans (aluInstr_of_ok h),
    fun _ h => (exec_decode_opcodeZero mode s).trans (aluInstr_of_error h)⟩

/-- Settles O44: an ALU instruction writes `x[3]` and `pc`, or takes a fault. -/
theorem aluInstructionsFrame : Obligations.AluInstructionsFrame := by
  intro mode s t i hi hexec
  have hrow : IsAluRow i = true := List.all_eq_true.1 rfl i hi
  rw [exec_aluRow hrow] at hexec
  rcases aluInstr_next hexec with ⟨v, -, rfl⟩ | ⟨f, -, rfl⟩
  · exact ⟨(getReg_setReg_advance s 3 v).2, ⟨fun _ => rfl, fun _ => rfl, rfl⟩, rfl, .inl ⟨rfl, rfl⟩⟩
  · exact ⟨fun _ _ => rfl, ⟨fun _ => rfl, fun _ => rfl, rfl⟩, rfl, .inr ⟨f, rfl⟩⟩

/-- Settles O36: each mode answers the word that its wrapped result spells. -/
theorem arithmeticInstructions : Obligations.ArithmeticInstructions := fun _ =>
  ⟨exec_aluRow_of_ok rfl (congrArg _ (aluAdd_eq_ofNat _ _)),
    exec_aluRow_of_ok rfl (congrArg _ (aluSub_eq_ofInt _ _)),
    exec_aluRow_of_ok rfl (congrArg _ (aluInc_eq_ofNat _)),
    exec_aluRow_of_ok rfl (congrArg _ (aluDec_eq_ofInt _))⟩

end Sys2Proof.Machine
end

section
/-! The data transfers' rules (42_data_transfer.md): the fault each one's checks name, in their order
(60_exceptions.md R126), and the words of opcode 3. -/

namespace Sys2Proof.Machine

/-! ### The faults, in the order of the checks -/

section Checks

variable {s : State} {o : Host.Outcome State Fault Refusal} {p q : Prop} [Decidable p] [Decidable q]
  {f g : FaultRecord} {rest : Option FaultRecord}

/-- The first check that fails names the fault, whatever the later ones would say. -/
theorem AnswersChecks.raises_first (h : AnswersChecks s (if p then some f else rest) o) (hp : p) :
    o = .next { s with status := .faulted, fault := some f } :=
  h.1 f (if_pos hp)

/-- The second check names the fault where the first one passes. -/
theorem AnswersChecks.raises_second (h : AnswersChecks s (if p then some f else if q then some g else rest) o)
    (hp : ¬ p) (hq : q) : o = .next { s with status := .faulted, fault := some g } :=
  h.1 g ((if_neg hp).trans (if_pos hq))

end Checks

/-- Under `fields` the checks of a MOVE are those of its source and of its destination (R103). -/
theorem exec_mov_fields_answersChecks {s : State} (hm : s.config.moveSemantics = .fields) (src dst : BitVec 4) :
    AnswersChecks s
      (if 8 ≤ src.toNat then some (.outOfRange .reg src.toNat)
        else if 8 ≤ dst.toNat then some (.outOfRange .reg dst.toNat)
        else none)
      (exec (.mov src dst) s) := by
  simpa [hm] using exec_mov_answersChecks src dst s

/-! ### Words and values -/

/-- Every word of opcode 3 is read as a MOVE. -/
theorem decode_opcodeThree (low : BitVec 12) : ∃ src dst, decode (3#4 ++ low) = .mov src dst := by
  have hop : (3#4 ++ low : Word).toNat / 4096 = 3 := by rw [← opcodeOf_toNat, opcodeOf_append]; rfl
  exact ⟨_, _, decode_of_opcode hop⟩

theorem zext8_eq_ofNat (v : BitVec 8) : zext8 v = BitVec.ofNat 16 v.toNat :=
  (BitVec.ofNat_toNat 16 v).symm

/-! ### The obligations -/

/-- Settles O45: the LOAD completes where both checks pass, and the address check comes first. -/
theorem loadInstruction : Obligations.LoadInstruction := by
  intro s reg addr
  have hchecks := exec_ld_answersChecks reg addr s
  exact ⟨fun _ hi ha => exec_ld_slot s hi ha, hchecks.raises_first,
    fun ha => hchecks.raises_second (Nat.not_le.2 ha)⟩

/-- Settles O46: the STORE that completes writes the cell it names, and the index check comes first. -/
theorem storeInstruction : Obligations.StoreInstruction := by
  intro s reg addr hwf
  have hchecks := exec_st_answersChecks reg addr s
  refine ⟨fun i hi ha => ⟨_, exec_st_slot s hi ha, rfl, fun a => ?_⟩, hchecks.raises_first,
    fun hr => hchecks.raises_second (Nat.not_le.2 hr)⟩
  rw [State.dataAt_advance, State.dataAt_setData hwf]

/-- Settles O47: the MOVE copies where both checks pass, and the source check comes first. -/
theorem moveUnderFields : Obligations.MoveUnderFields := by
  intro s src dst hm
  have hchecks := exec_mov_fields_answersChecks hm src dst
  exact ⟨fun _ _ hi hj => exec_mov_slots hm hi hj, hchecks.raises_first,
    fun hs => hchecks.raises_second (Nat.not_le.2 hs)⟩

/-- Settles O48: a word of opcode 3 is a MOVE, which under `literal` writes `x[0]` back to itself. -/
theorem moveUnderLiteral : Obligations.MoveUnderLiteral := by
  intro s low hm
  obtain ⟨src, dst, hdecode⟩ := decode_opcodeThree low
  exact ⟨⟨src, dst, hdecode⟩, hdecode ▸ exec_mov_literal hm src dst⟩

/-- Settles O49: the LOAD-IMMEDIATE completes where its one check passes. -/
theorem loadImmediateInstruction : Obligations.LoadImmediateInstruction := fun s reg value =>
  ⟨fun _ hi => zext8_eq_ofNat value ▸ exec_li_slot s hi value,
    (exec_li_answersChecks reg value s).raises_first⟩

end Sys2Proof.Machine
end

section
/-! The control instructions' rules (43_control.md): which step halts the core, where a JUMP leads, and the jump
to itself. -/

namespace Sys2Proof.Machine

/-! ### HALT (R112) -/

/-- A step that halts a running core has fetched a word of opcode 6. -/
theorem atHalt_of_step_halts {s t : State} (hr : s.status = .running) (hstep : step s = .next t)
    (ht : t.status = .halted) : s.AtHalt := by
  rcases (step_stops_iff hr).1 ⟨hstep, ht ▸ nofun⟩ with ⟨hhalt, -⟩ | ⟨f, -, rfl⟩
  · exact hhalt
  · cases ht

/-! ### JUMP (R110, R111) -/

/-- A JUMP completes with the common `+1` on the value it left in `pc`, taken or not. -/
theorem exec_jmp (s : State) (ty : BitVec 2) (g : JumpSign) (n : BitVec 9) :
    exec (.jmp ty g n) s = .next (s.setPc (jumpBase (s.getReg 4) s.pc ty g n + 1)) := rfl

theorem jumpAdjust_backward_one_succ (pc : Word) : jumpAdjust pc .backward 1 + 1 = pc :=
  sub_add_cancel pc 1

/-- A running core whose next step takes `JMP 0, -1` (R111 item 6). -/
structure State.AtJumpToItself (s : State) : Prop where
  running : s.status = .running
  fetches : s.pc.toNat < 64
  word : s.progAt s.pc.toNat = 0x4201
  taken : (s.getReg 4).getLsbD 0 = true

theorem State.AtJumpToItself.step_eq {s : State} (h : s.AtJumpToItself) : step s = .next (s.setIr 0x4201) := by
  have hdecode : decode 0x4201 = .jmp 0 .backward 1 := by decide
  rw [step_running h.running h.fetches, h.word, hdecode, exec_jmp, State.getReg_setIr,
    jumpBase_taken ⟨rfl, h.taken⟩, jumpAdjust_backward_one_succ]
  rfl

/-- A run that starts at a taken jump to itself is still there after any number of steps. -/
theorem State.AtJumpToItself.of_stepsTo {n : Nat} {s t : State} (h : s.AtJumpToItself) (r : StepsTo n s t) :
    t.AtJumpToItself := by
  induction r with
  | refl => exact h
  | cons hstep _ ih =>
    rw [h.step_eq, Host.Outcome.next.injEq] at hstep
    subst hstep
    exact ih ⟨h.running, h.fetches, h.word, h.taken⟩

/-! ### The obligations -/

/-- Settles O19: only the step at a HALT halts, and its answer is known. -/
theorem onlyHaltHalts : Obligations.OnlyHaltHalts := by
  intro s t hr hstep
  have hat : t.status = .halted → s.AtHalt := atHalt_of_step_halts hr hstep
  have heq : s.AtHalt → t = (s.setIr (s.progAt s.pc.toNat)).halt := fun hhalt =>
    Host.Outcome.next.inj (hstep.symm.trans (step_of_atHalt hr hhalt))
  exact ⟨⟨hat, fun hhalt => heq hhalt ▸ rfl⟩, fun ht => heq (hat ht)⟩

/-- Settles O26: the end of a run does not run, and the core at the jump to itself always does. -/
theorem takenJumpToItselfNeverEnds : Obligations.TakenJumpToItselfNeverEnds := by
  rintro s hr hp hw hbit n t ⟨hrun, hend, -⟩
  have ht : t.AtJumpToItself := State.AtJumpToItself.of_stepsTo ⟨hr, hp, hw, hbit⟩ hrun
  simp [State.ended, ht.running] at hend

/-- Settles O54: by the three values the JUMP leaves in `pc` for the common `+1`. -/
theorem jumpInstruction : Obligations.JumpInstruction := by
  intro s ty g n
  refine ⟨_, exec_jmp s ty g n, rfl, ?_, ?_, fun hnot => ?_⟩
  · rintro hty hbit rfl
    rw [State.setPc_pc, jumpBase_taken ⟨hty, hbit⟩, jumpAdjust_forward_succ]
  · rintro hty hbit rfl
    rw [State.setPc_pc, jumpBase_taken ⟨hty, hbit⟩, jumpAdjust_backward_succ]
  · rw [State.setPc_pc, jumpBase_not_taken hnot]
    exact BitVec.toNat_add s.pc 1

/-- Settles O55: every word of opcode 6 is a HALT, and a halted core is held. -/
theorem haltInstruction : Obligations.HaltInstruction := fun s =>
  ⟨rfl, fun low => exec_decode_halt (toNat_of_opcodeOf (opcodeOf_append 6 low)) s,
    fun _ _ hrun => hrun.eq_of_stopped nofun, rfl⟩

end Sys2Proof.Machine
end

section
/-! The faults' rules (60_exceptions.md): the codes of the record, what a faulting step leaves, and the record that
the ordered checks name. -/

namespace Sys2Proof.Machine

/-! ### The recorded fault (R121, R124, R126) -/

/-- A core that runs holds no record (10_state.md R21). -/
theorem State.Inv.no_record_of_running {s : State} (h : s.Inv) (hr : s.status = .running) : s.fault = none :=
  Option.eq_none_iff_forall_ne_some.2 fun _ hf => nomatch hr.symm.trans (h.faulted_of_record hf)

section Step

variable {s t : State} (hr : s.status = .running) (hstep : step s = .next t)
include hr hstep

/-- A step that faults takes the fault that the checks name, with the fetched word, if any, in `ir`. -/
theorem faultTaken_of_step_faults (ht : t.status = .faulted) :
    ∃ f, s.checkedFault = some f ∧
      t = (s.setIr (if s.pc.toNat < 64 then s.progAt s.pc.toNat else s.ir)).raise f := by
  rcases (step_stops_iff hr).1 ⟨hstep, ht ▸ nofun⟩ with ⟨-, rfl⟩ | hfault
  · cases ht
  · exact hfault

/-- A step records the fault that the checks name, and where they name none it leaves the record alone. -/
theorem step_records_checkedFault : t.fault = s.checkedFault.or s.fault := by
  have answer {u : State} (hu : step s = .next u) : t = u := Host.Outcome.next.inj (hstep.symm.trans hu)
  cases hf : s.checkedFault with
  | some f =>
    rw [answer (step_of_checkedFault hr hf)]
    rfl
  | none =>
    by_cases hhalt : s.AtHalt
    · rw [answer (step_of_atHalt hr hhalt)]
      rfl
    · obtain ⟨u, hu, -, hkept⟩ := step_of_no_checkedFault hr hf hhalt
      rw [answer hu]
      exact hkept

end Step

/-! ### The obligations -/

/-- Settles O28: a step that faults only takes the fault, and a core that has faulted is held. -/
theorem faultIsPreciseAndFinal : Obligations.FaultIsPreciseAndFinal := by
  intro s t hr hstep ht
  obtain ⟨f, -, heq⟩ := faultTaken_of_step_faults hr hstep ht
  exact ⟨⟨f, heq⟩, fun _ _ hrun => hrun.eq_of_stopped (ht ▸ nofun)⟩

/-- Settles O29: a running core starts with no record, and the invariant ties the new one to the status. -/
theorem faultsAreThoseOfTheCheckOrder : Obligations.FaultsAreThoseOfTheCheckOrder := by
  intro s t h hr hstep
  have hrecord : t.fault = s.checkedFault := by
    rw [step_records_checkedFault hr hstep, h.no_record_of_running hr, Option.or_none]
  exact ⟨hrecord, (everyStepKeepsTheInvariant s t h hstep).record_iff.symm⟩

/-- Settles O7: each kind of record has the code of its letter. -/
theorem faultCodesFollowTheLetters : Obligations.FaultCodesFollowTheLetters :=
  ⟨rfl, fun _ _ => rfl, fun _ => rfl, fun _ => rfl, fun _ => rfl, rfl, rfl, rfl⟩

end Sys2Proof.Machine
end

section
/-! The boundary to the host (70_reset_and_hazards.md): the image the host makes of a program, the state the reset
event leaves, where a placed word is fetched from, and what the host reads at the end of a run. -/

namespace Sys2Proof.Machine

/-! ### The image of a program (R145, R146) -/

theorem hostImage_of_fits {p : List Word} (h : p.length ≤ 64) :
    hostImage p = some ⟨(padWords p).toArray, padWords_length p h⟩ := dif_pos h

theorem hostImage_of_long {p : List Word} (h : 64 < p.length) : hostImage p = none := dif_neg (Nat.not_le.2 h)

theorem padWords_getElem (p : List Word) {i : Nat} (h : i < (padWords p).length) :
    (padWords p)[i] = if h : i < p.length then p[i] else haltWord := by
  simp only [padWords, List.getElem_append, List.getElem_replicate]

/-! ### A placed word (R141) -/

/-- The address a word is placed at is one the fetch accepts. -/
theorem fetchAddr_lt (s : State) : (fetchAddr s).toNat < 64 := by
  rw [fetchAddr]
  split
  · assumption
  · decide

theorem tableWord_sixteen (w : Nat) : tableWord 16 w = BitVec.ofNat 16 w :=
  BitVec.eq_of_toNat_eq (by simp [tableWord])

/-- The next fetch reads the word that was placed. -/
theorem State.progAt_withFetchWord {s : State} (h : Memory.wf progBlank 64 s.imem = true) (nbits w : Nat) :
    (s.withFetchWord nbits w).progAt (s.withFetchWord nbits w).pc.toNat = tableWord nbits w :=
  (Memory.read_write_of_wf h _ _ _).trans (if_pos rfl)

/-! ### The host's read (R144, R147) -/

theorem State.dataDump_length (s : State) : s.dataDump.length = 16 := by
  rw [State.dataDump, List.length_map, List.length_range]

theorem State.dataDump_getElem? (s : State) {a : Nat} (h : a < 16) : s.dataDump[a]? = some (s.dataAt a) := by
  rw [State.dataDump, List.getElem?_map, List.getElem?_range h, Option.map_some]

theorem State.hostRead_of_running {s : State} (h : s.status = .running) : s.hostRead = none := by
  rw [State.hostRead, h]

/-- Halted or faulted, the host reads the same items. -/
theorem State.hostRead_of_stopped {s : State} (h : s.status ≠ .running) :
    s.hostRead = some ⟨s.status, s.fault, s.dataDump, s.regs, s.pc⟩ := by
  rw [State.hostRead]
  split
  case h_1 hr => exact absurd hr h
  case h_2 => rfl
  case h_3 => rfl

/-! ### The obligations -/

/-- Settles O4: the image is the padded program, word by word; of the empty one it is the padding alone. -/
theorem hostPadsTheProgram : Obligations.HostPadsTheProgram :=
  ⟨fun p hp => ⟨_, hostImage_of_fits hp, fun _ => padWords_getElem p _⟩,
    hostImage_of_fits (p := []) (Nat.zero_le 64)⟩

/-- Settles O27: the core runs at an address in range, and the fetch there reads the placed word. -/
theorem placedWordIsRunNext : Obligations.PlacedWordIsRunNext := by
  intro s w hwf
  have hstep := step_running (s := s.withFetchWord 16 w) rfl (fetchAddr_lt s)
  rw [State.progAt_withFetchWord hwf, tableWord_sixteen] at hstep
  exact hstep

/-- Settles O33: the padded program fills exactly the instruction RAM, and the rest is as in the reset state. -/
theorem hostStartMeetsTheInvariant : Obligations.HostStartMeetsTheInvariant := by
  intro s p hp
  have hpad : 0 + (padWords p).length ≤ 64 := by rw [padWords_length p hp]
  rw [hostStart_fits s hp]
  exact {
    dmem_wf := resetMeetsTheInvariant.dmem_wf
    imem_wf := wfFrom_cellsFrom progBlank 64 0 (padWords p) hpad
    record_iff := resetMeetsTheInvariant.record_iff
    record_legal := nofun }

/-- Settles O3: a program that is too long has no image, and without one the host does nothing. -/
theorem longProgramNeverReachesTheCore : Obligations.LongProgramNeverReachesTheCore := by
  intro s p hp
  have hnone := hostImage_of_long hp
  exact ⟨hnone, by rw [State.hostStart, hnone]⟩

/-- Settles O5: of the old state the start keeps the parameters alone. -/
theorem resetForgetsTheOldRun : Obligations.ResetForgetsTheOldRun := by
  intro s t p hp hconfig
  rw [hostStart_fits s hp, hostStart_fits t hp, hconfig]

/-- Settles O6: the host reads nothing of a running core and every item of a stopped one. -/
theorem hostReadsTheFinalState : Obligations.HostReadsTheFinalState := fun s =>
  ⟨State.hostRead_of_running, fun hs => ⟨_, State.hostRead_of_stopped hs, rfl, rfl, s.dataDump_length,
    fun _ => s.dataDump_getElem?, rfl, rfl⟩⟩

end Sys2Proof.Machine
end

section
/-! The opcode table (30_encoding.md section 5): every word lies in the row it is read as, and no two rows share a
word. -/

namespace Sys2Proof.Machine

open Laws.EncodesIntoRow (takes_opcode)

/-! ### The row a word is read as -/

theorem row_mem_opcodeTable (i : Instr) : i.row ∈ opcodeTable := by
  cases i <;> simp [opcodeTable, Instr.row]

/-- A word of any opcode but 0 is read as the row that fixes its opcode alone (R51). -/
theorem decodeAs_row {o : BitVec 4} (h : o ≠ 0) (w : Word) :
    (decodeAs o.toNat w).row = ⟨o ++ 0#12, 0xF000⟩ := by
  have ho : o = 1 ∨ o = 2 ∨ o = 3 ∨ o = 4 ∨ o = 5 ∨ o = 6 ∨ o = 7 ∨ o = 8 ∨ o = 9 ∨ o = 10 ∨ o = 11 ∨
      o = 12 ∨ o = 13 ∨ o = 14 ∨ o = 15 := by bv_omega
  rcases ho with rfl | rfl | rfl | rfl | rfl | rfl | rfl | rfl | rfl | rfl | rfl | rfl | rfl | rfl | rfl <;> rfl

/-- A well-formed row of opcode 0 takes the word of its mode (R52, R61). -/
theorem aluRow_takes {i : Instr} (hi : IsAluRow i = true) (h : i.wellFormed = true) :
    i.row.takes (encodeA (aluModeOf i)) = true := by
  cases i with
  | ld | st | mov | jmp | li | halt | illegalOp7 | illegalOp8 | illegalOp9 | illegalOp10 | illegalOp11
  | illegalOp12 | illegalOp13 | illegalOp14 | illegalOp15 => cases hi
  | shl | shr | and | not | xor | or | add | sub | cmp | inc | dec | illegalAluMode000B => rfl
  | illegalAluMode000C m => exact Laws.EncodesIntoRow.illegalAluMode000C m h
  | illegalAluMode0010 m => exact Laws.EncodesIntoRow.illegalAluMode0010 m h
  | illegalAluMode0020 m => exact Laws.EncodesIntoRow.illegalAluMode0020 m h
  | illegalAluMode0040 m => exact Laws.EncodesIntoRow.illegalAluMode0040 m h
  | illegalAluMode0080 m => exact Laws.EncodesIntoRow.illegalAluMode0080 m h
  | illegalAluMode0100 m => exact Laws.EncodesIntoRow.illegalAluMode0100 m h
  | illegalAluMode0200 m => exact Laws.EncodesIntoRow.illegalAluMode0200 m h
  | illegalAluMode0400 m => exact Laws.EncodesIntoRow.illegalAluMode0400 m h
  | illegalAluMode0800 m => exact Laws.EncodesIntoRow.illegalAluMode0800 m h

theorem decode_row_takes (w : Word) : (decode w).row.takes w = true := by
  obtain ⟨o, low, rfl⟩ := word_split w
  by_cases h : o = 0
  · subst h
    obtain ⟨hrow, hwf, hmode⟩ := decodeAlu_spec low
    have htakes := aluRow_takes hrow hwf
    rw [hmode, ← decode_encodeA] at htakes
    exact htakes
  · rw [decode, opcodeOf_append, decodeAs_row h]
    exact takes_opcode o low

/-! ### Disjointness -/

/-- Two rows that take one word fix the bits both of them fix to the same values. -/
theorem patterns_agree_of_takes {r r' : OpcodeRow} {w : Word} (h : r.takes w = true) (h' : r'.takes w = true) :
    r.pattern &&& r'.mask = r'.pattern &&& r.mask := by
  rw [OpcodeRow.takes, beq_iff_eq] at h h'
  rw [← h, ← h', BitVec.and_assoc, BitVec.and_assoc, BitVec.and_comm r.mask]

/-- Any two different rows of the table fix some common bit to different values. -/
theorem opcodeTable_patterns_differ : ∀ r ∈ opcodeTable, ∀ r' ∈ opcodeTable,
    r.pattern &&& r'.mask = r'.pattern &&& r.mask → r = r' := by
  decide

/-! ### The obligations -/

/-- Settles O11: the decoded row takes the word, and no other row of the table does. -/
theorem opcodeTableHasOneRowPerWord : Obligations.OpcodeTableHasOneRowPerWord := by
  refine ⟨rfl, fun w r => ⟨fun ⟨hmem, htakes⟩ => ?_, ?_⟩⟩
  · exact opcodeTable_patterns_differ r hmem _ (row_mem_opcodeTable _)
      (patterns_agree_of_takes htakes (decode_row_takes w))
  · rintro rfl
    exact ⟨row_mem_opcodeTable _, decode_row_takes w⟩

/-- Settles O13: each sample word is read by its opcode and fields. -/
theorem sampleWordsDecode : Obligations.SampleWordsDecode := by
  unfold Obligations.SampleWordsDecode
  decide

end Sys2Proof.Machine
end
